-- ==== Sys2Proof/Word.lean ====
section
/-! DEFINITION. The machine's value types. Every quantity of this hardware is unsigned (00_scope.md R10): a
register, a timer and a memory cell are bytes, an instruction word, the program counter, the index register and a
stack slot are 16 bits (log 5). A register, key, row or column number is an index and not a bit vector. -/

namespace Sys2Proof

/-- A general register, a timer, an immediate `kk` or a memory cell: 8 bits, unsigned (10_state.md R20, R28, 20_memory.md R60). -/
abbrev Byte := BitVec 8

/-- An instruction word, `pc`, `I` or a stack slot: 16 bits, unsigned (30_encoding.md R90, 10_state.md R23, R25, R26). -/
abbrev Word := BitVec 16

/-- The 12-bit immediate `addr` of an instruction (30_encoding.md R91, R93). -/
abbrev Addr := BitVec 12

/-- A register number 0 to 15 (10_state.md R20). -/
abbrev Reg := Fin 16

/-- A key number 0 to 15 (10_state.md R32). -/
abbrev Key := Fin 16

/-- A framebuffer row 0 to 31 (10_state.md R31). -/
abbrev Row := Fin 32

/-- A framebuffer column 0 to 63 (10_state.md R31). -/
abbrev Col := Fin 64

end Sys2Proof
end

