-- ==== Sys2Proof/Config.lean ====
section
/-! DEFINITION. What is fixed for this hardware (00_scope.md R6), and the one free value of the spec. -/

namespace Sys2Proof.Config

/-- MEMSIZE: bytes of memory, addresses 0x000 to 0xFFF (00_scope.md R6, 20_memory.md R60). -/
abbrev memSize : Nat := 4096

/-- PROG_BASE: the load address and the reset value of `pc` (00_scope.md R6). -/
abbrev progBase : Nat := 0x200

/-- PROG_MAX: the largest program in bytes, `4096 - 0x200` (00_scope.md R6). -/
abbrev progMax : Nat := 3584

/-- STACK_DEPTH: return addresses the stack holds (00_scope.md R6). -/
abbrev stackDepth : Nat := 16

/-- The `n`-th byte the random input delivers (10_state.md R42, 93_implementation_defined.md U1, log 3): a FREE
VALUE. It has no body, so every theorem holds for every sequence of bytes. -/
opaque rndByte : Nat → Byte

end Sys2Proof.Config
end

