-- ==== Sys2Proof/Syntax.lean ====
section
/-! DEFINITION. The 34 instructions (00_scope.md R2), one constructor per row of spec/opcode_table.json, in the
table's order. A constructor holds the operands its rule names; the fields a rule ignores (30_encoding.md R100, R101)
are no operands, and all their values are the same instruction. -/

namespace Sys2Proof

inductive Instr where
  /-- CLS, 00E0 (44_display.md R210) -/
  | cls
  /-- RET, 00EE (41_control_transfer.md R140) -/
  | ret
  /-- JP addr, 1aaa (41_control_transfer.md R141) -/
  | jp (addr : Addr)
  /-- CALL addr, 2aaa (41_control_transfer.md R142) -/
  | call (addr : Addr)
  /-- SE Vx,kk, 3xkk (41_control_transfer.md R143) -/
  | seImm (x : Reg) (kk : Byte)
  /-- SNE Vx,kk, 4xkk (41_control_transfer.md R144) -/
  | sneImm (x : Reg) (kk : Byte)
  /-- SE Vx,Vy, 5xy- (41_control_transfer.md R145) -/
  | seReg (x y : Reg)
  /-- LD Vx,kk, 6xkk (42_alu.md R161) -/
  | ldImm (x : Reg) (kk : Byte)
  /-- ADD Vx,kk, 7xkk (42_alu.md R162) -/
  | addImm (x : Reg) (kk : Byte)
  /-- LD Vx,Vy, 8xy0 (42_alu.md R165) -/
  | ldReg (x y : Reg)
  /-- OR Vx,Vy, 8xy1 (42_alu.md R166) -/
  | orReg (x y : Reg)
  /-- AND Vx,Vy, 8xy2 (42_alu.md R167) -/
  | andReg (x y : Reg)
  /-- XOR Vx,Vy, 8xy3 (42_alu.md R168) -/
  | xorReg (x y : Reg)
  /-- ADD Vx,Vy, 8xy4 (42_alu.md R169) -/
  | addReg (x y : Reg)
  /-- SUB Vx,Vy, 8xy5 (42_alu.md R170) -/
  | subReg (x y : Reg)
  /-- SHR Vx, 8x-6 (42_alu.md R171) -/
  | shr (x : Reg)
  /-- SUBN Vx,Vy, 8xy7 (42_alu.md R172) -/
  | subnReg (x y : Reg)
  /-- SHL Vx, 8x-E (42_alu.md R173) -/
  | shl (x : Reg)
  /-- SNE Vx,Vy, 9xy- (41_control_transfer.md R146) -/
  | sneReg (x y : Reg)
  /-- LD I,addr, Aaaa (43_index_memory.md R190) -/
  | ldI (addr : Addr)
  /-- JP V0,addr, Baaa (41_control_transfer.md R148) -/
  | jpV0 (addr : Addr)
  /-- RND Vx,kk, Cxkk (42_alu.md R174) -/
  | rnd (x : Reg) (kk : Byte)
  /-- DRW Vx,Vy,n, Dxyn (44_display.md R211); `n` is the number of sprite rows, see `Instr.wf` -/
  | drw (x y : Reg) (n : Nat)
  /-- SKP Vx, Ex9E (45_keypad_timers.md R230) -/
  | skp (x : Reg)
  /-- SKNP Vx, ExA1 (45_keypad_timers.md R231) -/
  | sknp (x : Reg)
  /-- LD Vx,DT, Fx07 (45_keypad_timers.md R234) -/
  | ldVxDT (x : Reg)
  /-- LD Vx,K, Fx0A (45_keypad_timers.md R232) -/
  | ldVxK (x : Reg)
  /-- LD DT,Vx, Fx15 (45_keypad_timers.md R235) -/
  | ldDTVx (x : Reg)
  /-- LD ST,Vx, Fx18 (45_keypad_timers.md R236) -/
  | ldSTVx (x : Reg)
  /-- ADD I,Vx, Fx1E (43_index_memory.md R192) -/
  | addI (x : Reg)
  /-- LD F,Vx, Fx29 (43_index_memory.md R193) -/
  | ldF (x : Reg)
  /-- LD B,Vx, Fx33 (43_index_memory.md R194) -/
  | ldB (x : Reg)
  /-- LD [I],Vx, Fx55 (43_index_memory.md R195) -/
  | stRegs (x : Reg)
  /-- LD Vx,[I], Fx65 (43_index_memory.md R196) -/
  | ldRegs (x : Reg)
  deriving DecidableEq, Repr

end Sys2Proof
end

