-- ==== Sys2Proof/WellFormed.lean ====
section
/-! DEFINITION. What must hold of a term for it to stand for something of the hardware and that its type does not
already say: an instruction's row count fits its 4-bit field, and a program image fits the program region. Register
numbers, immediates and addresses are bounded by their types. -/

namespace Sys2Proof

/-- A sprite has at most 15 rows, "n in [0,15]" (44_display.md R211); every other operand is bounded by its type. -/
def Instr.wf : Instr → Bool
  | .drw _ _ n => decide (n ≤ 15)
  | .cls | .ret | .jp _ | .call _ | .seImm _ _ | .sneImm _ _ | .seReg _ _ | .ldImm _ _ | .addImm _ _ | .ldReg _ _
  | .orReg _ _ | .andReg _ _ | .xorReg _ _ | .addReg _ _ | .subReg _ _ | .shr _ | .subnReg _ _ | .shl _ | .sneReg _ _
  | .ldI _ | .jpV0 _ | .rnd _ _ | .skp _ | .sknp _ | .ldVxDT _ | .ldVxK _ | .ldDTVx _ | .ldSTVx _ | .addI _ | .ldF _
  | .ldB _ | .stRegs _ | .ldRegs _ => true

/-- A program image: "raw bytes, no header ... valid length range [0, 3584] bytes" (70_reset_and_hazards.md R295). -/
def romFits (rom : List Byte) : Bool := decide (rom.length ≤ Config.progMax)

end Sys2Proof
end

