-- ==== Sys2Proof/Decode.lean ====
section
/-! DEFINITION. Fields, decoder, encoder and the opcode map (30_encoding.md). The decoder follows the two-level
dispatch of R94 to R101; `opcodeMap` is the match and mask table of R102, written apart from it, so that the two can
be held against each other. The numeric opcodes are the spec's, which marks them as general knowledge (log 2). -/

namespace Sys2Proof

/-- The fields of an instruction word (30_encoding.md R91). -/
def fieldFamily (w : Word) : Nat := (w.extractLsb' 12 4).toNat

def fieldX (w : Word) : Reg := ⟨(w.extractLsb' 8 4).toNat, (w.extractLsb' 8 4).isLt⟩

def fieldY (w : Word) : Reg := ⟨(w.extractLsb' 4 4).toNat, (w.extractLsb' 4 4).isLt⟩

def fieldN (w : Word) : Nat := (w.extractLsb' 0 4).toNat

def fieldKk (w : Word) : Byte := w.extractLsb' 0 8

def fieldAddr (w : Word) : Addr := w.extractLsb' 0 12

/-- Family 0x0: the whole word selects (30_encoding.md R96). -/
def decodeFamily0 (w : Word) : Option Instr :=
  match w.toNat with
  | 0x00E0 => some .cls
  | 0x00EE => some .ret
  | _ => none

/-- Family 0x8: the low nibble selects (30_encoding.md R97); SHR and SHL ignore y (R101). -/
def decodeFamily8 (w : Word) : Option Instr :=
  match fieldN w with
  | 0x0 => some (.ldReg (fieldX w) (fieldY w))
  | 0x1 => some (.orReg (fieldX w) (fieldY w))
  | 0x2 => some (.andReg (fieldX w) (fieldY w))
  | 0x3 => some (.xorReg (fieldX w) (fieldY w))
  | 0x4 => some (.addReg (fieldX w) (fieldY w))
  | 0x5 => some (.subReg (fieldX w) (fieldY w))
  | 0x6 => some (.shr (fieldX w))
  | 0x7 => some (.subnReg (fieldX w) (fieldY w))
  | 0xE => some (.shl (fieldX w))
  | _ => none

/-- Family 0xE: the low byte selects (30_encoding.md R98). -/
def decodeFamilyE (w : Word) : Option Instr :=
  match (fieldKk w).toNat with
  | 0x9E => some (.skp (fieldX w))
  | 0xA1 => some (.sknp (fieldX w))
  | _ => none

/-- Family 0xF: the low byte selects (30_encoding.md R99). -/
def decodeFamilyF (w : Word) : Option Instr :=
  match (fieldKk w).toNat with
  | 0x07 => some (.ldVxDT (fieldX w))
  | 0x0A => some (.ldVxK (fieldX w))
  | 0x15 => some (.ldDTVx (fieldX w))
  | 0x18 => some (.ldSTVx (fieldX w))
  | 0x1E => some (.addI (fieldX w))
  | 0x29 => some (.ldF (fieldX w))
  | 0x33 => some (.ldB (fieldX w))
  | 0x55 => some (.stRegs (fieldX w))
  | 0x65 => some (.ldRegs (fieldX w))
  | _ => none

/-- The decoder, total on words: one of the 34 instructions with its operands, or `none`, the spec's Unimplemented
(30_encoding.md R95, R103). Families 0x5 and 0x9 do not look at n (R100). -/
def decode (w : Word) : Option Instr :=
  match fieldFamily w with
  | 0x0 => decodeFamily0 w
  | 0x1 => some (.jp (fieldAddr w))
  | 0x2 => some (.call (fieldAddr w))
  | 0x3 => some (.seImm (fieldX w) (fieldKk w))
  | 0x4 => some (.sneImm (fieldX w) (fieldKk w))
  | 0x5 => some (.seReg (fieldX w) (fieldY w))
  | 0x6 => some (.ldImm (fieldX w) (fieldKk w))
  | 0x7 => some (.addImm (fieldX w) (fieldKk w))
  | 0x8 => decodeFamily8 w
  | 0x9 => some (.sneReg (fieldX w) (fieldY w))
  | 0xA => some (.ldI (fieldAddr w))
  | 0xB => some (.jpV0 (fieldAddr w))
  | 0xC => some (.rnd (fieldX w) (fieldKk w))
  | 0xD => some (.drw (fieldX w) (fieldY w) (fieldN w))
  | 0xE => decodeFamilyE w
  | 0xF => decodeFamilyF w
  | _ => none

/-- Big-endian: the byte at the lower address is the high byte of the word (20_memory.md R64). -/
def wordOfBytes (hi lo : Byte) : Word := BitVec.ofNat 16 (hi.toNat * 256 + lo.toNat)

def highByte (w : Word) : Byte := w.extractLsb' 8 8

def lowByte (w : Word) : Byte := w.extractLsb' 0 8

/-- Why bytes are not an instruction, by name: the word matches no row (30_encoding.md R106), or fewer than the two
bytes every instruction has (R90) are left. -/
inductive Reject where
  | unimplementedOpcode (word : Word)
  | tooShort (bytes : Nat)
  deriving DecidableEq, Repr

/-- The decoder on a string of bytes: the instruction and the bytes after it (30_encoding.md R90, R108). -/
def decodeBytes : List Byte → Except Reject (Instr × List Byte)
  | hi :: lo :: rest =>
    match decode (wordOfBytes hi lo) with
    | some i => .ok (i, rest)
    | none => .error (.unimplementedOpcode (wordOfBytes hi lo))
  | [_] => .error (.tooShort 1)
  | [] => .error (.tooShort 0)

/-- Format ADDR: the family and a 12-bit address (30_encoding.md R92). -/
def encAddr (family : Nat) (addr : Addr) : Word := BitVec.ofNat 16 (family * 0x1000 + addr.toNat)

/-- Format XKK: the family, x and an 8-bit immediate (30_encoding.md R92). -/
def encXkk (family : Nat) (x : Reg) (kk : Byte) : Word := BitVec.ofNat 16 (family * 0x1000 + x.val * 0x100 + kk.toNat)

/-- Format XYN: the family, x, y and the low nibble (30_encoding.md R92). -/
def encXyn (family : Nat) (x y : Reg) (n : Nat) : Word :=
  BitVec.ofNat 16 (family * 0x1000 + x.val * 0x100 + y.val * 0x10 + n % 16)

/-- Format XSEL: the family, x and an 8-bit selector (30_encoding.md R92). -/
def encXsel (family : Nat) (x : Reg) (sel : Nat) : Word := BitVec.ofNat 16 (family * 0x1000 + x.val * 0x100 + sel)

/-- The canonical word of an instruction, with 0 in the fields it ignores (30_encoding.md R100 to R102, log 15). -/
def encode : Instr → Word
  | .cls => 0x00E0
  | .ret => 0x00EE
  | .jp addr => encAddr 0x1 addr
  | .call addr => encAddr 0x2 addr
  | .seImm x kk => encXkk 0x3 x kk
  | .sneImm x kk => encXkk 0x4 x kk
  | .seReg x y => encXyn 0x5 x y 0
  | .ldImm x kk => encXkk 0x6 x kk
  | .addImm x kk => encXkk 0x7 x kk
  | .ldReg x y => encXyn 0x8 x y 0x0
  | .orReg x y => encXyn 0x8 x y 0x1
  | .andReg x y => encXyn 0x8 x y 0x2
  | .xorReg x y => encXyn 0x8 x y 0x3
  | .addReg x y => encXyn 0x8 x y 0x4
  | .subReg x y => encXyn 0x8 x y 0x5
  | .shr x => encXyn 0x8 x 0 0x6
  | .subnReg x y => encXyn 0x8 x y 0x7
  | .shl x => encXyn 0x8 x 0 0xE
  | .sneReg x y => encXyn 0x9 x y 0
  | .ldI addr => encAddr 0xA addr
  | .jpV0 addr => encAddr 0xB addr
  | .rnd x kk => encXkk 0xC x kk
  | .drw x y n => encXyn 0xD x y n
  | .skp x => encXsel 0xE x 0x9E
  | .sknp x => encXsel 0xE x 0xA1
  | .ldVxDT x => encXsel 0xF x 0x07
  | .ldVxK x => encXsel 0xF x 0x0A
  | .ldDTVx x => encXsel 0xF x 0x15
  | .ldSTVx x => encXsel 0xF x 0x18
  | .addI x => encXsel 0xF x 0x1E
  | .ldF x => encXsel 0xF x 0x29
  | .ldB x => encXsel 0xF x 0x33
  | .stRegs x => encXsel 0xF x 0x55
  | .ldRegs x => encXsel 0xF x 0x65

/-- The bits of an instruction's words that the decoder does not look at: n of SE Vx,Vy and SNE Vx,Vy, y of SHR and
SHL (30_encoding.md R100, R101). -/
def Instr.ignored : Instr → Word
  | .seReg _ _ | .sneReg _ _ => 0x000F
  | .shr _ | .shl _ => 0x00F0
  | .cls | .ret | .jp _ | .call _ | .seImm _ _ | .sneImm _ _ | .ldImm _ _ | .addImm _ _ | .ldReg _ _ | .orReg _ _
  | .andReg _ _ | .xorReg _ _ | .addReg _ _ | .subReg _ _ | .subnReg _ _ | .ldI _ | .jpV0 _ | .rnd _ _ | .drw _ _ _
  | .skp _ | .sknp _ | .ldVxDT _ | .ldVxK _ | .ldDTVx _ | .ldSTVx _ | .addI _ | .ldF _ | .ldB _ | .stRegs _
  | .ldRegs _ => 0x0000

/-- The two bytes of a word in memory order (20_memory.md R64). -/
def bytesOfWord (w : Word) : List Byte := [highByte w, lowByte w]

/-- The bytes of an instruction in memory order. -/
def encodeBytes (i : Instr) : List Byte := bytesOfWord (encode i)

/-- One row of the opcode map: a word `w` is the row's instruction exactly when `w &&& mask = value` (30_encoding.md R102). -/
structure OpcodeRow where
  mnemonic : String
  value : Word
  mask : Word
  deriving DecidableEq, Repr

def OpcodeRow.accepts (r : OpcodeRow) (w : Word) : Bool := w &&& r.mask == r.value

/-- Rows 1 to 9 of 30_encoding.md R102. -/
def opcodeMapA : List OpcodeRow := [⟨"CLS", 0x00E0, 0xFFFF⟩, ⟨"RET", 0x00EE, 0xFFFF⟩, ⟨"JP_addr", 0x1000, 0xF000⟩,
  ⟨"CALL_addr", 0x2000, 0xF000⟩, ⟨"SE_Vx_kk", 0x3000, 0xF000⟩, ⟨"SNE_Vx_kk", 0x4000, 0xF000⟩,
  ⟨"SE_Vx_Vy", 0x5000, 0xF000⟩, ⟨"LD_Vx_kk", 0x6000, 0xF000⟩, ⟨"ADD_Vx_kk", 0x7000, 0xF000⟩]

/-- Rows 10 to 18 of 30_encoding.md R102. -/
def opcodeMapB : List OpcodeRow := [⟨"LD_Vx_Vy", 0x8000, 0xF00F⟩, ⟨"OR_Vx_Vy", 0x8001, 0xF00F⟩,
  ⟨"AND_Vx_Vy", 0x8002, 0xF00F⟩, ⟨"XOR_Vx_Vy", 0x8003, 0xF00F⟩, ⟨"ADD_Vx_Vy", 0x8004, 0xF00F⟩,
  ⟨"SUB_Vx_Vy", 0x8005, 0xF00F⟩, ⟨"SHR_Vx", 0x8006, 0xF00F⟩, ⟨"SUBN_Vx_Vy", 0x8007, 0xF00F⟩, ⟨"SHL_Vx", 0x800E, 0xF00F⟩]

/-- Rows 19 to 25 of 30_encoding.md R102. -/
def opcodeMapC : List OpcodeRow := [⟨"SNE_Vx_Vy", 0x9000, 0xF000⟩, ⟨"LD_I_addr", 0xA000, 0xF000⟩,
  ⟨"JP_V0_addr", 0xB000, 0xF000⟩, ⟨"RND_Vx_kk", 0xC000, 0xF000⟩, ⟨"DRW_Vx_Vy_n", 0xD000, 0xF000⟩,
  ⟨"SKP_Vx", 0xE09E, 0xF0FF⟩, ⟨"SKNP_Vx", 0xE0A1, 0xF0FF⟩]

/-- Rows 26 to 34 of 30_encoding.md R102. -/
def opcodeMapD : List OpcodeRow := [⟨"LD_Vx_DT", 0xF007, 0xF0FF⟩, ⟨"LD_Vx_K", 0xF00A, 0xF0FF⟩,
  ⟨"LD_DT_Vx", 0xF015, 0xF0FF⟩, ⟨"LD_ST_Vx", 0xF018, 0xF0FF⟩, ⟨"ADD_I_Vx", 0xF01E, 0xF0FF⟩,
  ⟨"LD_F_Vx", 0xF029, 0xF0FF⟩, ⟨"LD_B_Vx", 0xF033, 0xF0FF⟩, ⟨"LD__I__Vx", 0xF055, 0xF0FF⟩, ⟨"LD_Vx__I", 0xF065, 0xF0FF⟩]

/-- The complete opcode map (30_encoding.md R102). -/
def opcodeMap : List OpcodeRow := opcodeMapA ++ opcodeMapB ++ opcodeMapC ++ opcodeMapD

/-- The mnemonic of an instruction's row in spec/opcode_table.json. -/
def Instr.mnemonic : Instr → String
  | .cls => "CLS"
  | .ret => "RET"
  | .jp _ => "JP_addr"
  | .call _ => "CALL_addr"
  | .seImm _ _ => "SE_Vx_kk"
  | .sneImm _ _ => "SNE_Vx_kk"
  | .seReg _ _ => "SE_Vx_Vy"
  | .ldImm _ _ => "LD_Vx_kk"
  | .addImm _ _ => "ADD_Vx_kk"
  | .ldReg _ _ => "LD_Vx_Vy"
  | .orReg _ _ => "OR_Vx_Vy"
  | .andReg _ _ => "AND_Vx_Vy"
  | .xorReg _ _ => "XOR_Vx_Vy"
  | .addReg _ _ => "ADD_Vx_Vy"
  | .subReg _ _ => "SUB_Vx_Vy"
  | .shr _ => "SHR_Vx"
  | .subnReg _ _ => "SUBN_Vx_Vy"
  | .shl _ => "SHL_Vx"
  | .sneReg _ _ => "SNE_Vx_Vy"
  | .ldI _ => "LD_I_addr"
  | .jpV0 _ => "JP_V0_addr"
  | .rnd _ _ => "RND_Vx_kk"
  | .drw _ _ _ => "DRW_Vx_Vy_n"
  | .skp _ => "SKP_Vx"
  | .sknp _ => "SKNP_Vx"
  | .ldVxDT _ => "LD_Vx_DT"
  | .ldVxK _ => "LD_Vx_K"
  | .ldDTVx _ => "LD_DT_Vx"
  | .ldSTVx _ => "LD_ST_Vx"
  | .addI _ => "ADD_I_Vx"
  | .ldF _ => "LD_F_Vx"
  | .ldB _ => "LD_B_Vx"
  | .stRegs _ => "LD__I__Vx"
  | .ldRegs _ => "LD_Vx__I"

/-- The word of a table row given as a number of `nbits` bits: bits above `nbits` are 0. -/
def tableWord (nbits w : Nat) : Word := BitVec.ofNat 16 (w % 2 ^ nbits)

/-- What the decoder reads from the word `w` of `nbits` bits laid out in memory order (20_memory.md R64). -/
def decodeTableWord (nbits w : Nat) : Option Instr :=
  match decodeBytes (bytesOfWord (tableWord nbits w)) with
  | .ok (i, _) => some i
  | .error _ => none

end Sys2Proof
end

