-- ==== Sys2Proof/Machine/State.lean ====
section
/-! DEFINITION. The state of the machine (10_state.md), the ways a step can stop, and the state after reset. Field
names are the spec's own. -/

namespace Sys2Proof.Machine

/-- Main memory (10_state.md R30, 20_memory.md R60) as the list of the bytes that differ from the reset contents, by
rising address. `Memory.read` gives the byte at an address, `Memory.wf` the canonical form (log 21). -/
abbrev Memory := List Host.Cell

/-- The architectural state: everything 10_state.md R20 to R34 names, and `rndCount`, the model's own. -/
structure State where
  /-- the general registers V0 to VF (R20); `V[15]` is VF, the flag register (R21) -/
  V : Vector Byte 16
  /-- the address of the instruction being executed (R23) -/
  pc : Word
  /-- the index register (R25) -/
  I : Word
  /-- how many return addresses the stack holds, 0 to 16 (R27, 90_conflicts.md C1) -/
  SP : Fin 17
  /-- the return stack, which is not in memory (R26) -/
  Stack : Vector Word 16
  /-- the delay timer (R28) -/
  DT : Byte
  /-- the sound timer (R29) -/
  ST : Byte
  /-- true is WaitingForKey, false is Running (R33, 45_keypad_timers.md R233) -/
  waiting : Bool
  /-- the dirty flag of the framebuffer (R34) -/
  needRedraw : Bool
  /-- the key levels, true is pressed; the host alone writes them (R32) -/
  K : Vector Bool 16
  /-- the framebuffer, 32 rows of 64 cells, a cell of 1 is true (R31) -/
  FB : Vector (Vector Bool 64) 32
  /-- main memory (R30) -/
  mem : Memory
  /-- MODEL's own: how many random bytes have been sampled, the index of the next one (R42, log 3) -/
  rndCount : Nat
  deriving DecidableEq, Repr

/-- The causes of 60_exceptions.md R250, in its order. Each is what the spec says the step reports, so each is safe:
the hardware stops there too and its state is unchanged (R256). -/
inductive Fault where
  /-- raised by decode: the fetched word matches no instruction; it records the word (R251) -/
  | unimplementedOpcode (word : Word)
  /-- raised by CALL with 16 return addresses on the stack (R252) -/
  | stackOverflow
  /-- raised by RET with an empty stack (R253) -/
  | stackUnderflow
  /-- raised by the fetch, DRW, LD B,Vx, LD [I],Vx, LD Vx,[I] for an address above 0xFFF, and by ADD I,Vx for a sum
  that does not fit 16 bits (R254) -/
  | memoryOutOfBounds
  /-- raised by SKP and SKNP when Vx is above 15 (R255) -/
  | keyIndexOutOfRange
  deriving DecidableEq, Repr

/-- Why the model gives a step no meaning. -/
inductive Refusal where
  /-- raised by `exec` for an instruction that has no meaning in the model, by its mnemonic; no arm does so; safe -/
  | notModelled (mnemonic : String)
  deriving DecidableEq, Repr

/-- The state after reset (10_state.md R39, 70_reset_and_hazards.md R290 to R292). Memory lists nothing: every byte
reads as its reset content. `rndCount` is the model's own (log 3). -/
def State.reset : State :=
  { V := Vector.replicate 16 0
    pc := BitVec.ofNat 16 Config.progBase
    I := 0
    SP := 0
    Stack := Vector.replicate 16 0
    DT := 0
    ST := 0
    waiting := false
    needRedraw := false
    K := Vector.replicate 16 false
    FB := Vector.replicate 32 (Vector.replicate 64 false)
    mem := []
    rndCount := 0 }

end Sys2Proof.Machine
end

