-- ==== Sys2Proof/Machine/Memory.lean ====
section
/-! DEFINITION. Main memory: the reset contents, the read and the write of one byte, the bounds check, and the
canonical form. Addresses are natural numbers, never masked and never wrapped (20_memory.md R63). -/

namespace Sys2Proof.Machine

/-- Glyphs 0 to 7 of the font (70_reset_and_hazards.md R293, log 1). -/
def fontLow : List Byte :=
  [0xF0, 0x90, 0x90, 0x90, 0xF0] ++ [0x20, 0x60, 0x20, 0x20, 0x70] ++
  [0xF0, 0x10, 0xF0, 0x80, 0xF0] ++ [0xF0, 0x10, 0xF0, 0x10, 0xF0] ++
  [0x90, 0x90, 0xF0, 0x10, 0x10] ++ [0xF0, 0x80, 0xF0, 0x10, 0xF0] ++
  [0xF0, 0x80, 0xF0, 0x90, 0xF0] ++ [0xF0, 0x10, 0x20, 0x40, 0x40]

/-- Glyphs 8 to F of the font (70_reset_and_hazards.md R293, log 1). -/
def fontHigh : List Byte :=
  [0xF0, 0x90, 0xF0, 0x90, 0xF0] ++ [0xF0, 0x90, 0xF0, 0x10, 0xF0] ++
  [0xF0, 0x90, 0xF0, 0x90, 0x90] ++ [0xE0, 0x90, 0xE0, 0x90, 0xE0] ++
  [0xF0, 0x80, 0x80, 0x80, 0xF0] ++ [0xE0, 0x90, 0x90, 0x90, 0xE0] ++
  [0xF0, 0x80, 0xF0, 0x80, 0xF0] ++ [0xF0, 0x80, 0xF0, 0x80, 0x80]

/-- The 80 font bytes (70_reset_and_hazards.md R293). -/
def font : List Byte := fontLow ++ fontHigh

/-- What an address that memory does not list reads as, its reset content: the font from 0x000, 0x00 from 0x050
(70_reset_and_hazards.md R292). -/
def resetByte (a : Nat) : Byte := font.getD a 0

/-- The byte at an address: the last byte written there, or its reset content (20_memory.md R69, R72). -/
def Memory.read : Memory → Nat → Byte
  | [], a => resetByte a
  | (k, b) :: rest, a => if k = a then b else Memory.read rest a

/-- The entries of a memory without those of one address. -/
def Memory.erase (m : Memory) (a : Nat) : Memory := m.filter (fun c => c.1 != a)

/-- Place an entry in front of the first entry of a higher address. -/
def Memory.insert : Memory → Nat → Byte → Memory
  | [], a, b => [(a, b)]
  | (k, c) :: rest, a, b => if k < a then (k, c) :: Memory.insert rest a b else (a, b) :: (k, c) :: rest

/-- Write one byte, keeping the canonical form: a byte equal to its reset content is not listed (20_memory.md R69). -/
def Memory.write (m : Memory) (a : Nat) (b : Byte) : Memory :=
  if b = resetByte a then m.erase a else (m.erase a).insert a b

/-- The canonical form: addresses strictly rising and inside memory, no entry equal to its reset content. -/
abbrev Memory.wf (m : Memory) : Prop :=
  m.Pairwise (fun c d => c.1 < d.1) ∧ ∀ c ∈ m, c.1 < Config.memSize ∧ c.2 ≠ resetByte c.1

/-- Whether the `n` bytes from `a` are all inside memory; no byte is an access to nothing (20_memory.md R63,
44_display.md R214). -/
def accessOk (a n : Nat) : Bool := n == 0 || decide (a + n ≤ Config.memSize)

/-- Write a list of bytes at ascending addresses. -/
def Memory.writeBytes : Memory → Nat → List Byte → Memory
  | m, _, [] => m
  | m, a, b :: rest => Memory.writeBytes (m.write a b) (a + 1) rest

/-- The two bytes at `a` as a word, the first the high byte (20_memory.md R64). -/
def Memory.readWord (m : Memory) (a : Nat) : Word := wordOfBytes (m.read a) (m.read (a + 1))

end Sys2Proof.Machine
end

