-- ==== Sys2Proof/Machine/Ops.lean ====
section
/-! DEFINITION. The named operations the meanings are written over: registers, `pc`, the stack, the framebuffer, the
keys, the fault outcome, the guarded memory access, fetch and the timer step. -/

namespace Sys2Proof.Machine

/-- The outcome of an instruction or a step. -/
abbrev Result := Host.Outcome State Fault Refusal

/-- Register 0xF, the flag register (10_state.md R21). -/
abbrev vf : Reg := 15

/-- `V[r]` (00_scope.md R11). -/
def State.reg (s : State) (r : Reg) : Byte := s.V[r.val]

/-- `V[r] <- b`; no register is hard-wired (10_state.md R20). -/
def State.setReg (s : State) (r : Reg) (b : Byte) : State := { s with V := s.V.set r.val b r.isLt }

/-- `pc <- a` (00_scope.md R11). -/
def State.setPc (s : State) (a : Word) : State := { s with pc := a }

/-- `pc <- pc + 2`, the ordinary advance (40_cycle.md R124). -/
def State.advance (s : State) : State := s.setPc (s.pc + 2)

/-- The skip pattern: "PC += 2 always; PC += 2 again if condition holds" (41_control_transfer.md R147). -/
def State.skipIf (s : State) (c : Bool) : State := if c then s.advance.advance else s.advance

/-- `I <- a` (43_index_memory.md R190). -/
def State.setI (s : State) (a : Word) : State := { s with I := a }

/-- Taking an exception, the one way a fault is raised: the step ends, no state changes, nothing is saved and control
goes nowhere (60_exceptions.md R256, R259). There is no return from it (R260). The state of the machine after a step
that ended so is the state before it, `cycle` in HostPort. -/
def raise (f : Fault) : Result := .fault f

/-- An instruction that accesses the `n` bytes from `a`: all of them are checked before anything is written
(43_index_memory.md R191, 20_memory.md R68). -/
def withAccess (a n : Nat) (s : State) : Result := if accessOk a n then .next s else raise .memoryOutOfBounds

/-- `Stack[j]`, for a slot number below 16 (10_state.md R26). -/
def State.stackAt (s : State) (j : Fin 16) : Word := s.Stack[j.val]

/-- Push a return address (41_control_transfer.md R142). -/
def State.push (s : State) (h : s.SP.val < Config.stackDepth) (a : Word) : State :=
  { s with Stack := s.Stack.set s.SP.val a h, SP := ⟨s.SP.val + 1, Nat.succ_lt_succ h⟩ }

/-- The slot that a pop reads: `SP - 1` (41_control_transfer.md R140). -/
def State.topSlot (s : State) : Fin 16 := ⟨s.SP.val - 1, by have := s.SP.isLt; omega⟩

/-- `SP <- SP - 1`; the slot keeps its value (41_control_transfer.md R140). -/
def State.drop (s : State) : State := { s with SP := ⟨s.SP.val - 1, by have := s.SP.isLt; omega⟩ }

/-- `FB[row][col]` (10_state.md R31). -/
def State.pixel (s : State) (row : Row) (col : Col) : Bool := (s.FB[row.val])[col.val]

/-- `FB[row][col] <- b` (10_state.md R31). -/
def State.setPixel (s : State) (row : Row) (col : Col) (b : Bool) : State :=
  { s with FB := s.FB.set row.val ((s.FB[row.val]).set col.val b col.isLt) row.isLt }

/-- All 2048 cells 0 (44_display.md R210). -/
def State.clearFB (s : State) : State := { s with FB := Vector.replicate 32 (Vector.replicate 64 false) }

/-- `K[k]` as the host last left it (10_state.md R32). -/
def State.key (s : State) (k : Key) : Bool := s.K[k.val]

/-- The register or key numbers 0 to 15 in ascending order. -/
def ascending : List (Fin 16) := [0, 1, 2, 3, 4, 5, 6, 7, 8, 9, 10, 11, 12, 13, 14, 15]

/-- The ascending scan for a pressed key, "first pressed key wins" (45_keypad_timers.md R232). -/
def State.firstKey (s : State) : Option Key := ascending.find? (fun k => s.key k)

/-- The registers 0 to x, x included, in ascending order (43_index_memory.md R195, R196). -/
def regsUpTo (x : Reg) : List Reg := ascending.take (x.val + 1)

/-- Store one byte of memory (00_scope.md R11 `MemWrite`; the bounds are checked by `withAccess`). -/
def State.store (s : State) (a : Nat) (b : Byte) : State := { s with mem := s.mem.write a b }

/-- Store registers 0 to x from I upward (43_index_memory.md R195). -/
def State.storeRegs (s : State) (x : Reg) : State :=
  (regsUpTo x).foldl (fun t r => t.store (t.I.toNat + r.val) (t.reg r)) s

/-- Load registers 0 to x from I upward (43_index_memory.md R196). -/
def State.loadRegs (s : State) (x : Reg) : State :=
  (regsUpTo x).foldl (fun t r => t.setReg r (t.mem.read (t.I.toNat + r.val))) s

/-- One count of a timer, "saturating floor at 0" (40_cycle.md R128). -/
def tick (t : Byte) : Byte := if t = 0 then 0 else t - 1

/-- The timer step (40_cycle.md R128); `waiting` is as the handler of this step left it. -/
def timerStep (s : State) : State := if s.waiting then s else { s with DT := tick s.DT, ST := tick s.ST }

/-- What follows the handler in a step: the timer step, unless the handler faulted (40_cycle.md R120). -/
def finish : Result → Result
  | .next s => .next (timerStep s)
  | .fault f => .fault f
  | .refused r => .refused r

/-- Fetch the word at `pc`; a fetch that would read above 0xFFF faults (40_cycle.md R121). -/
def State.fetch (s : State) : Except Fault Word :=
  if accessOk s.pc.toNat 2 then .ok (s.mem.readWord s.pc.toNat) else .error .memoryOutOfBounds

/-- Decode, with the fault of an illegal word (40_cycle.md R122, 30_encoding.md R106). -/
def decodeOrFault (w : Word) : Except Fault Instr :=
  match decode w with
  | some i => .ok i
  | none => .error (.unimplementedOpcode w)

/-- Put the two bytes of a word where the next fetch reads them; nothing where no fetch can read (log 22). -/
def State.storeAtPc (s : State) (w : Word) : State :=
  if accessOk s.pc.toNat 2 then { s with mem := s.mem.writeBytes s.pc.toNat (bytesOfWord w) } else s

end Sys2Proof.Machine
end

