-- ==== Sys2Proof/Machine/Flags.lean ====
section
/-! DEFINITION. The flag computations: every value that 10_state.md R36 writes to VF. -/

namespace Sys2Proof.Machine

/-- A flag as the byte 0 or 1 (10_state.md R21). -/
def flagByte (c : Bool) : Byte := if c then 1 else 0

/-- ADD Vx,Vy: 1 if Vx + Vy > 255 (42_alu.md R169). -/
def carryOut (a b : Byte) : Bool := decide (a.toNat + b.toNat > 255)

/-- SUB and SUBN: 1 if a > b, strictly (42_alu.md R170, R172). -/
def greater (a b : Byte) : Bool := decide (a.toNat > b.toNat)

/-- SHR: bit 0 before the shift (42_alu.md R171). -/
def bitZero (a : Byte) : Bool := a.getLsbD 0

/-- SHL: bit 7 before the shift (42_alu.md R173). -/
def bitSeven (a : Byte) : Bool := a.getLsbD 7

/-- ADDI_FLAG_THRESHOLD (00_scope.md R6). -/
def indexThreshold : Nat := 0x0F00

/-- ADD I,Vx: 1 if the new I exceeds 0x0F00 (43_index_memory.md R192). -/
def indexHigh (sum : Nat) : Bool := decide (sum > indexThreshold)

/-- `V[15] <- c` as a flag (10_state.md R36). -/
def State.setVF (s : State) (c : Bool) : State := s.setReg vf (flagByte c)

/-- `V[15] <- V[15] | c`, the collision flag accumulates (44_display.md R213). -/
def State.orVF (s : State) (c : Bool) : State := s.setReg vf (s.reg vf ||| flagByte c)

end Sys2Proof.Machine
end

