-- ==== Sys2Proof/Machine/Operands.lean ====
section
/-! DEFINITION. The operand forms (30_encoding.md R93, 43_index_memory.md R191): zero-extended immediates and
registers, the effective address `I + k`, the indexed jump target, the key number in a register, the decimal digits,
the sprite's bits and coordinates. Register operands are `State.reg`. -/

namespace Sys2Proof.Machine

/-- A 12-bit immediate in a 16-bit register (30_encoding.md R93). -/
def addrWord (a : Addr) : Word := a.setWidth 16

/-- An 8-bit value in a 16-bit register (00_scope.md R10 `zext_16`). -/
def byteWord (b : Byte) : Word := b.setWidth 16

/-- The effective address `I + k`, a natural number that does not wrap (43_index_memory.md R191). -/
def State.ea (s : State) (k : Nat) : Nat := s.I.toNat + k

/-- The target of JP V0,addr: `addr + V0`, not masked (41_control_transfer.md R148). -/
def State.indexedTarget (s : State) (a : Addr) : Word := addrWord a + byteWord (s.reg 0)

/-- The sum of ADD I,Vx as a natural number (43_index_memory.md R192). -/
def State.indexSum (s : State) (x : Reg) : Nat := s.I.toNat + (s.reg x).toNat

/-- The address of the glyph of Vx: five bytes a glyph from 0x000, the whole register counts (43_index_memory.md R193). -/
def State.glyphAddr (s : State) (x : Reg) : Word := byteWord (s.reg x) * 5

/-- The key a register names, if it names one; the value is not masked (45_keypad_timers.md R237). -/
def State.keyOf (s : State) (x : Reg) : Option Key :=
  if h : (s.reg x).toNat ≤ 15 then some ⟨(s.reg x).toNat, Nat.lt_succ_of_le h⟩ else none

/-- The decimal digits of a byte (43_index_memory.md R194). -/
def hundreds (b : Byte) : Byte := b / 100

def tens (b : Byte) : Byte := b / 10 % 10

def ones (b : Byte) : Byte := b % 10

/-- Bit of sprite column c: column 0 is bit 7 (44_display.md R211). -/
def spriteBit (b : Byte) (c : Nat) : Bool := b.getLsbD (7 - c)

/-- The framebuffer row of sprite row r, each wrapped by itself (44_display.md R212). -/
def spriteRow (vy : Byte) (r : Nat) : Row := ⟨(vy.toNat + r) % 32, Nat.mod_lt _ (by decide)⟩

/-- The framebuffer column of sprite column c, each wrapped by itself (44_display.md R212). -/
def spriteCol (vx : Byte) (c : Nat) : Col := ⟨(vx.toNat + c) % 64, Nat.mod_lt _ (by decide)⟩

end Sys2Proof.Machine
end

