-- ==== Sys2Proof/Machine/Alu.lean ====
section
/-! DEFINITION. The register, immediate, arithmetic, logic, shift and random instructions (42_alu.md). Assignments
take place in the order written and read the registers as the previous one left them (R163, log 9). -/

namespace Sys2Proof.Machine

/-- LD Vx,kk (R161). -/
def execLdImm (x : Reg) (kk : Byte) (s : State) : Result := .next (s.setReg x kk).advance

/-- ADD Vx,kk (R162): VF is not written as a flag. -/
def execAddImm (x : Reg) (kk : Byte) (s : State) : Result := .next (s.setReg x (s.reg x + kk)).advance

/-- LD Vx,Vy (R165). -/
def execLdReg (x y : Reg) (s : State) : Result := .next (s.setReg x (s.reg y)).advance

/-- OR Vx,Vy (R166): VF is not written as a flag. -/
def execOrReg (x y : Reg) (s : State) : Result := .next (s.setReg x (s.reg x ||| s.reg y)).advance

/-- AND Vx,Vy (R167): VF is not written as a flag. -/
def execAndReg (x y : Reg) (s : State) : Result := .next (s.setReg x (s.reg x &&& s.reg y)).advance

/-- XOR Vx,Vy (R168): VF is not written as a flag. -/
def execXorReg (x y : Reg) (s : State) : Result := .next (s.setReg x (s.reg x ^^^ s.reg y)).advance

/-- ADD Vx,Vy (R169): the sum and the carry are of the registers on entry, the flag is written last. -/
def execAddReg (x y : Reg) (s : State) : Result :=
  .next ((s.setReg x (s.reg x + s.reg y)).setVF (carryOut (s.reg x) (s.reg y))).advance

/-- The second assignment of SUB, after VF is written (R170). -/
def State.subFrom (s : State) (x y : Reg) : State := s.setReg x (s.reg x - s.reg y)

/-- SUB Vx,Vy (R170): the flag is written first. -/
def execSubReg (x y : Reg) (s : State) : Result :=
  .next ((s.setVF (greater (s.reg x) (s.reg y))).subFrom x y).advance

/-- The second assignment of SHR, after VF is written (R171). -/
def State.halve (s : State) (x : Reg) : State := s.setReg x (s.reg x >>> 1)

/-- SHR Vx (R171): the flag is written first. -/
def execShr (x : Reg) (s : State) : Result := .next ((s.setVF (bitZero (s.reg x))).halve x).advance

/-- The second assignment of SUBN, after VF is written (R172). -/
def State.subNegFrom (s : State) (x y : Reg) : State := s.setReg x (s.reg y - s.reg x)

/-- SUBN Vx,Vy (R172): the flag is written first. -/
def execSubnReg (x y : Reg) (s : State) : Result :=
  .next ((s.setVF (greater (s.reg y) (s.reg x))).subNegFrom x y).advance

/-- The second assignment of SHL, after VF is written (R173). -/
def State.double (s : State) (x : Reg) : State := s.setReg x (s.reg x <<< 1)

/-- SHL Vx (R173): the flag is written first. -/
def execShl (x : Reg) (s : State) : Result := .next ((s.setVF (bitSeven (s.reg x))).double x).advance

/-- RND Vx,kk with the byte the random input delivers (R174). -/
def rndWith (b : Byte) (x : Reg) (kk : Byte) (s : State) : State :=
  { (s.setReg x (b &&& kk)).advance with rndCount := s.rndCount + 1 }

/-- RND Vx,kk (R174): the byte is a free value, and each execution samples the next one (10_state.md R42, log 3). -/
def execRnd (x : Reg) (kk : Byte) (s : State) : Result := .next (rndWith (Config.rndByte s.rndCount) x kk s)

end Sys2Proof.Machine
end

