-- ==== Sys2Proof/Machine/Control.lean ====
section
/-! DEFINITION. The control transfer instructions (41_control_transfer.md). `pc` on entry is the address of the
instruction itself (10_state.md R23); no target is checked here (R149). -/

namespace Sys2Proof.Machine

/-- RET (R140): the stack holds the address of the CALL, and RET adds 2. -/
def execRet (s : State) : Result :=
  if s.SP.val = 0 then raise .stackUnderflow else .next (s.drop.setPc (s.stackAt s.topSlot + 2))

/-- JP addr (R141). -/
def execJp (addr : Addr) (s : State) : Result := .next (s.setPc (addrWord addr))

/-- CALL addr (R142): pushes the address of the CALL itself. -/
def execCall (addr : Addr) (s : State) : Result :=
  if h : s.SP.val < Config.stackDepth then .next ((s.push h s.pc).setPc (addrWord addr)) else raise .stackOverflow

/-- SE Vx,kk (R143). -/
def execSeImm (x : Reg) (kk : Byte) (s : State) : Result := .next (s.skipIf (s.reg x == kk))

/-- SNE Vx,kk (R144). -/
def execSneImm (x : Reg) (kk : Byte) (s : State) : Result := .next (s.skipIf (s.reg x != kk))

/-- SE Vx,Vy (R145). -/
def execSeReg (x y : Reg) (s : State) : Result := .next (s.skipIf (s.reg x == s.reg y))

/-- SNE Vx,Vy (R146). -/
def execSneReg (x y : Reg) (s : State) : Result := .next (s.skipIf (s.reg x != s.reg y))

/-- JP V0,addr (R148). -/
def execJpV0 (addr : Addr) (s : State) : Result := .next (s.setPc (s.indexedTarget addr))

end Sys2Proof.Machine
end

