-- ==== Sys2Proof/Machine/Display.lean ====
section
/-! DEFINITION. The display instructions and the sprite engine (44_display.md). -/

namespace Sys2Proof.Machine

/-- CLS (R210): `need_redraw` is left as it was. -/
def execCls (s : State) : Result := .next s.clearFB.advance

/-- One pixel: VF accumulates the collision, then the cell is XORed (R211). -/
def State.drawPixel (s : State) (row : Row) (col : Col) (bit : Bool) : State :=
  (s.orVF (bit && s.pixel row col)).setPixel row col (s.pixel row col ^^ bit)

/-- One sprite row, columns 0 to 7 in order (R211). -/
def State.drawRow (s : State) (vx : Byte) (row : Row) (b : Byte) : State :=
  [0, 1, 2, 3, 4, 5, 6, 7].foldl (fun t c => t.drawPixel row (spriteCol vx c) (spriteBit b c)) s

/-- The first n sprite rows in order, at the sampled coordinates (R211, R218). -/
def State.drawRows (s : State) (vx vy : Byte) : Nat → State
  | 0 => s
  | n + 1 => (s.drawRows vx vy n).drawRow vx (spriteRow vy n) (s.mem.read (s.ea n))

/-- `need_redraw <- 1` (R216). -/
def State.markRedraw (s : State) : State := { s with needRedraw := true }

/-- DRW Vx,Vy,n (R211 to R218): the sprite bytes are checked first, none with n = 0 (R214, R215). -/
def execDrw (x y : Reg) (n : Nat) (s : State) : Result :=
  withAccess (s.ea 0) n (s.drawRows (s.reg x) (s.reg y) n).markRedraw.advance

end Sys2Proof.Machine
end

