-- ==== Sys2Proof/Machine/Index.lean ====
section
/-! DEFINITION. The index register and memory instructions (43_index_memory.md). Every access is checked before
anything is written, and none modifies I (R191). -/

namespace Sys2Proof.Machine

/-- LD I,addr (R190). -/
def execLdI (addr : Addr) (s : State) : Result := .next (s.setI (addrWord addr)).advance

/-- ADD I,Vx (R192): faults only when the sum does not fit the register. -/
def execAddI (x : Reg) (s : State) : Result :=
  if s.indexSum x > 0xFFFF then raise .memoryOutOfBounds
  else .next ((s.setI (BitVec.ofNat 16 (s.indexSum x))).setVF (indexHigh (s.indexSum x))).advance

/-- LD F,Vx (R193): VF is not written. -/
def execLdF (x : Reg) (s : State) : Result := .next (s.setI (s.glyphAddr x)).advance

/-- The three stores of LD B,Vx (R194). -/
def State.storeBcd (s : State) (b : Byte) : State :=
  ((s.store (s.ea 0) (hundreds b)).store (s.ea 1) (tens b)).store (s.ea 2) (ones b)

/-- LD B,Vx (R194). -/
def execLdB (x : Reg) (s : State) : Result := withAccess (s.ea 0) 3 (s.storeBcd (s.reg x)).advance

/-- LD [I],Vx (R195). -/
def execStRegs (x : Reg) (s : State) : Result := withAccess (s.ea 0) (x.val + 1) (s.storeRegs x).advance

/-- LD Vx,[I] (R196). -/
def execLdRegs (x : Reg) (s : State) : Result := withAccess (s.ea 0) (x.val + 1) (s.loadRegs x).advance

end Sys2Proof.Machine
end

