-- ==== Sys2Proof/Machine/Keypad.lean ====
section
/-! DEFINITION. The keypad and timer instructions and the keypad wait (45_keypad_timers.md). -/

namespace Sys2Proof.Machine

/-- The key test both SKP and SKNP make: a number above 15 names no key (R237). -/
def keySkip (pressed : Bool) (x : Reg) (s : State) : Result :=
  match s.keyOf x with
  | some k => .next (s.skipIf (s.key k == pressed))
  | none => raise .keyIndexOutOfRange

/-- SKP Vx (R230). -/
def execSkp (x : Reg) (s : State) : Result := keySkip true x s

/-- SKNP Vx (R231). -/
def execSknp (x : Reg) (s : State) : Result := keySkip false x s

/-- The wait state machine's bit (R233). -/
def State.setWaiting (s : State) (b : Bool) : State := { s with waiting := b }

/-- LD Vx,K (R232): the same scan on the first execution and on every re-execution (log 12). -/
def execLdVxK (x : Reg) (s : State) : Result :=
  match s.firstKey with
  | some k => .next ((s.setReg x (BitVec.ofNat 8 k.val)).setWaiting false).advance
  | none => .next (s.setWaiting true)

/-- LD Vx,DT (R234). -/
def execLdVxDT (x : Reg) (s : State) : Result := .next (s.setReg x s.DT).advance

/-- `DT <- b` (R235). -/
def State.setDT (s : State) (b : Byte) : State := { s with DT := b }

/-- LD DT,Vx (R235). -/
def execLdDTVx (x : Reg) (s : State) : Result := .next (s.setDT (s.reg x)).advance

/-- `ST <- b` (R236). -/
def State.setST (s : State) (b : Byte) : State := { s with ST := b }

/-- LD ST,Vx (R236). -/
def execLdSTVx (x : Reg) (s : State) : Result := .next (s.setST (s.reg x)).advance

end Sys2Proof.Machine
end

