-- ==== Sys2Proof/Machine/Step.lean ====
section
/-! DEFINITION. The cycle step (40_cycle.md R120): fetch, decode, execute, timer step. -/

namespace Sys2Proof.Machine

/-- One cycle step. The first fault met ends it (60_exceptions.md R257); the handler sets `pc` itself (R124). -/
def step (s : State) : Host.Outcome State Fault Refusal :=
  match s.fetch with
  | .error f => raise f
  | .ok w =>
    match decodeOrFault w with
    | .error f => raise f
    | .ok i => finish (exec i s)

/-- `s` with an instruction where the next fetch reads it; it stands for the load of a program (log 13, log 22). -/
def State.withFetchWord (s : State) (nbits w : Nat) : State := s.storeAtPc (tableWord nbits w)

end Sys2Proof.Machine
end

