-- ==== Sys2Proof/Machine/HostPort.lean ====
section
/-! DEFINITION. The block's interface points (10_state.md R40 to R47): what the host may do, between steps only. -/

namespace Sys2Proof.Machine

/-- What the host may write between steps: a key level (R41) and `need_redraw` (R43). -/
inductive HostAction where
  | setKey (k : Key) (pressed : Bool)
  | setNeedRedraw (b : Bool)
  deriving DecidableEq, Repr

/-- The state after a host action; nothing else of the state is open to the host (R45, R47). -/
def hostAct : HostAction → State → State
  | .setKey k b, s => { s with K := s.K.set k.val b k.isLt }
  | .setNeedRedraw b, s => { s with needRedraw := b }

/-- `fb_read`: a cell reads as the byte 0x00 or 0x01 (R44). -/
def fbRead (s : State) (row : Row) (col : Col) : Byte := if s.pixel row col then 1 else 0

/-- `fb_read` by the linear index `row * 64 + col` (R31, log 16). -/
def fbReadLinear (s : State) (index : Fin 2048) : Byte :=
  fbRead s ⟨index.val / 64, by have := index.isLt; omega⟩ ⟨index.val % 64, Nat.mod_lt _ (by decide)⟩

/-- The outcome of a load (70_reset_and_hazards.md R296, R297). -/
inductive LoadOutcome where
  | loaded (s : State)
  | romTooLarge
  deriving DecidableEq, Repr

/-- `load`: the image's bytes from 0x200 upward; an image that does not fit is rejected and no byte is written
(70_reset_and_hazards.md R295 to R297, log 13). -/
def load (rom : List Byte) (s : State) : LoadOutcome :=
  if romFits rom then .loaded { s with mem := s.mem.writeBytes Config.progBase rom } else .romTooLarge

/-- The result of a step, held nowhere (R46). `refused` is the model's own, for an instruction without a meaning. -/
inductive StepResult where
  | ok
  | fault (f : Fault)
  | refused (r : Refusal)
  deriving DecidableEq, Repr

/-- One step as the host sees it: the state after it and the result. A step that faults leaves the state as it was
(60_exceptions.md R256, R261). -/
def cycle (s : State) : State × StepResult :=
  match step s with
  | .next t => (t, .ok)
  | .fault f => (s, .fault f)
  | .refused r => (s, .refused r)

/-- The number of a cause (60_exceptions.md R250, log 17). -/
def Fault.cause : Fault → Nat
  | .unimplementedOpcode _ => 1
  | .stackOverflow => 2
  | .stackUnderflow => 3
  | .memoryOutOfBounds => 4
  | .keyIndexOutOfRange => 5

/-- The value a fault records: the word of an illegal instruction, else nothing (60_exceptions.md R250). -/
def Fault.word : Fault → Option Word
  | .unimplementedOpcode w => some w
  | .stackOverflow | .stackUnderflow | .memoryOutOfBounds | .keyIndexOutOfRange => none

/-- One move of the host: a step request, or an action between steps (R47). -/
inductive HostMove where
  | step
  | act (a : HostAction)
  deriving DecidableEq, Repr

/-- A run: the host's moves one after the other, whatever their results (R40, R47). -/
def play : List HostMove → State → State
  | [], s => s
  | .step :: rest, s => play rest (cycle s).1
  | .act a :: rest, s => play rest (hostAct a s)

end Sys2Proof.Machine
end

