-- ==== Sys2Proof/Safety.lean ====
section
/-! DEFINITION. What claims about runs are said in: reachable states, the invariant of 10_state.md R38, the idle state
that counts as the end of a run, and what it is for two states to agree outside the places an instruction writes. -/

namespace Sys2Proof.Machine

/-- A state the block can be in: reset, one load of an image that fits, then any moves of the host
(70_reset_and_hazards.md R290, R296, 40_cycle.md R129). -/
def Reachable (s : State) : Prop :=
  ∃ rom s₀ moves, load rom State.reset = .loaded s₀ ∧ s = play moves s₀

/-- The invariant of 10_state.md R38, with what keeps it: memory is in canonical form, `pc` is at most 0x10FE, every
stack slot is an address a CALL was fetched from (R26, at most 0x0FFE), and while `waiting` is 1 the bytes at `pc` are
LD Vx,K. `SP` at most 16 and cells of 0 or 1 hold by type. -/
structure Inv (s : State) : Prop where
  mem : s.mem.wf
  pc : s.pc.toNat ≤ 0x10FE
  stack : ∀ j : Fin 16, (s.stackAt j).toNat ≤ 0x0FFE
  waiting : s.waiting = true → ∃ w x, s.fetch = .ok w ∧ decode w = some (.ldVxK x)

/-- The end of a run, the model's own definition (40_cycle.md R130, log 18): `pc` addresses a JP to its own address and
both timers are 0. -/
def Idle (s : State) : Prop :=
  ∃ w addr, s.fetch = .ok w ∧ decode w = some (.jp addr) ∧ addrWord addr = s.pc ∧ s.DT = 0 ∧ s.ST = 0

/-- The instruction completes in this state, and the next state has the property. -/
def Completes (i : Instr) (s : State) (P : State → Prop) : Prop := ∃ t, exec i s = .next t ∧ P t

/-- The fetch at `pc` succeeds and the word there decodes to this instruction. -/
def Fetches (s : State) (i : Instr) : Prop := ∃ w, s.fetch = .ok w ∧ decode w = some i

/-- The registers other than those listed are unchanged. -/
def SameRegs (written : List Reg) (s t : State) : Prop := ∀ r, r ∉ written → t.reg r = s.reg r

/-- Every byte of memory reads as before. -/
def SameMem (s t : State) : Prop := ∀ a, t.mem.read a = s.mem.read a

/-- Every byte of memory outside the `n` bytes from `base` reads as before. -/
def SameMemOutside (base n : Nat) (s t : State) : Prop :=
  ∀ a, (a < base ∨ base + n ≤ a) → t.mem.read a = s.mem.read a

/-- Every cell of the framebuffer is unchanged. -/
def SameFB (s t : State) : Prop := ∀ row col, t.pixel row col = s.pixel row col

/-- The return stack and its pointer are unchanged. -/
def SameStack (s t : State) : Prop := t.SP = s.SP ∧ ∀ j, t.stackAt j = s.stackAt j

/-- Everything but the general registers and `pc` is unchanged. Claims about an instruction that writes another field
too compare with the old state in which that one field is replaced. -/
structure OnlyRegs (s t : State) : Prop where
  index : t.I = s.I
  stack : SameStack s t
  timers : t.DT = s.DT ∧ t.ST = s.ST
  waiting : t.waiting = s.waiting
  redraw : t.needRedraw = s.needRedraw
  keys : ∀ k, t.key k = s.key k
  fb : SameFB s t
  mem : SameMem s t
  rnd : t.rndCount = s.rndCount

/-- Everything but the listed registers and `pc` is unchanged. -/
def OnlyRegsIn (written : List Reg) (s t : State) : Prop := OnlyRegs s t ∧ SameRegs written s t

/-- Cell (row, col) gets a sprite bit of 1: it is the target of row r and column c of the sprite, and that bit of the
sprite is 1 (44_display.md R211, R212). -/
def SpriteCovers (s : State) (vx vy : Byte) (n : Nat) (row : Row) (col : Col) : Prop :=
  ∃ r c, r < n ∧ c < 8 ∧ row.val = (vy.toNat + r) % 32 ∧ col.val = (vx.toNat + c) % 64 ∧
    (s.mem.read (s.I.toNat + r)).getLsbD (7 - c) = true

/-- The condition of a skip instruction, none for any other (41_control_transfer.md R143 to R147, 45_keypad_timers.md
R230, R231). -/
def skipCondition (s : State) : Instr → Option Prop
  | .seImm x kk => some (s.reg x = kk)
  | .sneImm x kk => some (s.reg x ≠ kk)
  | .seReg x y => some (s.reg x = s.reg y)
  | .sneReg x y => some (s.reg x ≠ s.reg y)
  | .skp x => some (∃ k : Key, k.val = (s.reg x).toNat ∧ s.key k = true)
  | .sknp x => some (∃ k : Key, k.val = (s.reg x).toNat ∧ s.key k = false)
  | .cls | .ret | .jp _ | .call _ | .ldImm _ _ | .addImm _ _ | .ldReg _ _ | .orReg _ _ | .andReg _ _ | .xorReg _ _
  | .addReg _ _ | .subReg _ _ | .shr _ | .subnReg _ _ | .shl _ | .ldI _ | .jpV0 _ | .rnd _ _ | .drw _ _ _
  | .ldVxDT _ | .ldVxK _ | .ldDTVx _ | .ldSTVx _ | .addI _ | .ldF _ | .ldB _ | .stRegs _ | .ldRegs _ => none

/-- The largest k of the addresses `I + k` that an instruction accesses, none if it accesses none
(43_index_memory.md R191). -/
def lastOffset : Instr → Option Nat
  | .ldB _ => some 2
  | .stRegs x | .ldRegs x => some x.val
  | .drw _ _ (n + 1) => some n
  | .drw _ _ 0 | .cls | .ret | .jp _ | .call _ | .seImm _ _ | .sneImm _ _ | .seReg _ _ | .ldImm _ _ | .addImm _ _
  | .ldReg _ _ | .orReg _ _ | .andReg _ _ | .xorReg _ _ | .addReg _ _ | .subReg _ _ | .shr _ | .subnReg _ _ | .shl _
  | .sneReg _ _ | .ldI _ | .jpV0 _ | .rnd _ _ | .skp _ | .sknp _ | .ldVxDT _ | .ldVxK _ | .ldDTVx _ | .ldSTVx _
  | .addI _ | .ldF _ => none

end Sys2Proof.Machine
end

