-- ==== Sys2Proof/Certificates/Slice0/Obligations.lean ====
section
/-! DEFINITION. The statements for the provers. Each cites the rules of spec/ it formalises. In the claims about one
instruction the first clause is its encoding, written as the number the rule's pattern stands for, and `Completes`
says that it answers a next state. The opcode numbers are those of 30_encoding.md R102, which the spec marks as general
knowledge (log 2), and where a docstring names a log entry its clause rests on a decision of the spec (D<n>) or of the
model and not on the source. -/

open Sys2Proof Sys2Proof.Machine

/-! ### Encoding and dispatch -/

/-- Words written out from 30_encoding.md R102 decode to the instructions they stand for. A sanity statement. -/
def Obligations.WrittenWordsDecode : Prop :=
  decode 0x00E0 = some .cls ∧ decode 0x00EE = some .ret ∧ decode 0x1204 = some (.jp 0x204) ∧
  decode 0x220A = some (.call 0x20A) ∧ decode 0x3A42 = some (.seImm 0xA 0x42) ∧ decode 0x5AB7 = some (.seReg 0xA 0xB) ∧
  decode 0x8124 = some (.addReg 1 2) ∧ decode 0x81A6 = some (.shr 1) ∧ decode 0xD125 = some (.drw 1 2 5) ∧
  decode 0xE39E = some (.skp 3) ∧ decode 0xF255 = some (.stRegs 2) ∧ decode 0xF265 = some (.ldRegs 2) ∧
  decode 0x0000 = none ∧ decode 0x812F = none ∧ decode 0xE39F = none ∧ decode 0xF075 = none

/-- Decoding the bytes of a well-formed instruction gives it back with the bytes that follow (30_encoding.md R90,
R102, R103). The canonical word has 0 in ignored fields (log 15). -/
def Obligations.DecodeOfEncode : Prop :=
  ∀ (i : Instr) (rest : List Byte), i.wf = true →
    decode (encode i) = some i ∧ decodeBytes (encodeBytes i ++ rest) = .ok (i, rest)

/-- A word decodes to an instruction exactly when the instruction is well formed and the word is its canonical word in
every bit the decoder looks at (30_encoding.md R100, R101, R102). Which bits are ignored is D3 and D22 (log 15). -/
def Obligations.DecodesExactlyUpToIgnoredBits : Prop :=
  ∀ (w : Word) (i : Instr), decode w = some i ↔ (i.wf = true ∧ w &&& ~~~i.ignored = encode i)

/-- 30_encoding.md R102: a word is the instruction of a row exactly when `op & mask == match`; the rows are disjoint. -/
def Obligations.OpcodeMapIsTheDecoder : Prop :=
  (∀ (w : Word) (r : OpcodeRow), r ∈ opcodeMap →
    (r.accepts w = true ↔ ∃ i, decode w = some i ∧ i.mnemonic = r.mnemonic)) ∧
  (∀ (w : Word) (r q : OpcodeRow), r ∈ opcodeMap → q ∈ opcodeMap → r.accepts w = true → q.accepts w = true → r = q)

/-- 30_encoding.md R106, 60_exceptions.md R251: the illegal words are exactly those listed, and a step that fetches
one reports UnimplementedOpcode with the word and leaves the state as it was. How strict the match is, is D3 (log 15).
-/
def Obligations.IllegalWordsFault : Prop :=
  (∀ w : Word, decode w = none ↔
    (w.toNat < 0x1000 ∧ w.toNat ≠ 0x00E0 ∧ w.toNat ≠ 0x00EE) ∨
    (w.toNat / 0x1000 = 0x8 ∧ ((0x8 ≤ w.toNat % 16 ∧ w.toNat % 16 ≤ 0xD) ∨ w.toNat % 16 = 0xF)) ∨
    (w.toNat / 0x1000 = 0xE ∧ w.toNat % 256 ≠ 0x9E ∧ w.toNat % 256 ≠ 0xA1) ∨
    (w.toNat / 0x1000 = 0xF ∧ w.toNat % 256 ∉ [0x07, 0x0A, 0x15, 0x18, 0x1E, 0x29, 0x33, 0x55, 0x65])) ∧
  (∀ (s : State) (w : Word), s.fetch = .ok w → decode w = none →
    step s = .fault (.unimplementedOpcode w) ∧ cycle s = (s, .fault (.unimplementedOpcode w)))

/-! ### The cycle step -/

/-- 40_cycle.md R121, 20_memory.md R64: the fetch is big-endian at any `pc` up to 0x0FFE, odd or even, and a higher
`pc` raises MemoryOutOfBounds whatever memory holds. The bound is D2 (log 6). That the faulting step leaves the state
as it was is D6 (log 8). -/
def Obligations.FetchIsBigEndianAndBounded : Prop :=
  ∀ s : State,
    (s.pc.toNat ≤ 0x0FFE → ∃ w, s.fetch = .ok w ∧
      w.toNat = (s.mem.read s.pc.toNat).toNat * 256 + (s.mem.read (s.pc.toNat + 1)).toNat) ∧
    (s.pc.toNat > 0x0FFE → step s = .fault .memoryOutOfBounds ∧ cycle s = (s, .fault .memoryOutOfBounds))

/-- 40_cycle.md R120: a fetch that faults ends the step, an illegal word ends it, and when the bytes at `pc` decode to
an instruction the step is that instruction's handler and then the timer step, if the handler completed; a step that
faults leaves the state as it was. Nothing is added to `pc`. That a faulting step leaves the state as it was is D6
(log 8). -/
def Obligations.StepRunsTheDecodedInstruction : Prop :=
  ∀ s : State,
    (∀ f, s.fetch = .error f → step s = .fault f) ∧
    (∀ w, s.fetch = .ok w → decode w = none → step s = .fault (.unimplementedOpcode w)) ∧
    (∀ i, s.pc.toNat ≤ 0x0FFE →
      decode (wordOfBytes (s.mem.read s.pc.toNat) (s.mem.read (s.pc.toNat + 1))) = some i →
      step s = match exec i s with
        | .next t => .next (if t.waiting then t else { t with
            DT := if t.DT = 0 then 0 else t.DT - 1, ST := if t.ST = 0 then 0 else t.ST - 1 })
        | .fault f => .fault f
        | .refused r => .refused r) ∧
    (∀ t, step s = .next t → cycle s = (t, .ok)) ∧ (∀ f, step s = .fault f → cycle s = (s, .fault f))

/-- 40_cycle.md R128: after a handler that completed and left `waiting` 0 both timers count down by one, each with its
floor at 0; when it left `waiting` 1 neither does; after a fault there is no timer step. No timer step after a fault
is D6 (log 8). -/
def Obligations.TimerStepCountsDown : Prop :=
  ∀ (s : State) (i : Instr), Fetches s i →
    (∀ t, exec i s = .next t → ∃ u, step s = .next u ∧
      (t.waiting = false → u.DT.toNat = t.DT.toNat - 1 ∧ u.ST.toNat = t.ST.toNat - 1) ∧
      (t.waiting = true → u.DT = t.DT ∧ u.ST = t.ST) ∧
      u.pc = t.pc ∧ OnlyRegsIn [] { t with DT := u.DT, ST := u.ST } u) ∧
    (∀ f, exec i s = .fault f → cycle s = (s, .fault f))

/-- 40_cycle.md R127: a step has exactly one of two outcomes: the state after one instruction and one timer step, or a
fault and the state as it was. That a fault of any cause leaves the state as it was is D6 (log 8). -/
def Obligations.StepCompletesOrFaults : Prop :=
  ∀ s : State,
    (∃ i t u, Fetches s i ∧ exec i s = .next t ∧ u = timerStep t ∧ step s = .next u ∧ cycle s = (u, .ok)) ∨
    (∃ f, step s = .fault f ∧ cycle s = (s, .fault f))

/-- 60_exceptions.md R252 to R255 (causes of R250): which instruction raises which fault, and when, completely. The
fault of ADD I,Vx is D4 (log 7), that of the key tests D9 (log 11). -/
def Obligations.HandlerFaultsAreExactlyTheListed : Prop :=
  ∀ (i : Instr) (s : State) (f : Fault), exec i s = .fault f ↔
    ((∃ addr, i = .call addr) ∧ s.SP.val = 16 ∧ f = .stackOverflow) ∨
    (i = .ret ∧ s.SP.val = 0 ∧ f = .stackUnderflow) ∨
    ((∃ x y n, i = .drw x y n ∧ n > 0 ∧ s.I.toNat + n - 1 > 0xFFF) ∧ f = .memoryOutOfBounds) ∨
    ((∃ x, i = .ldB x) ∧ s.I.toNat + 2 > 0xFFF ∧ f = .memoryOutOfBounds) ∨
    ((∃ x, (i = .stRegs x ∨ i = .ldRegs x) ∧ s.I.toNat + x.val > 0xFFF) ∧ f = .memoryOutOfBounds) ∨
    ((∃ x, i = .addI x ∧ s.I.toNat + (s.reg x).toNat > 0xFFFF) ∧ f = .memoryOutOfBounds) ∨
    ((∃ x, (i = .skp x ∨ i = .sknp x) ∧ (s.reg x).toNat > 15) ∧ f = .keyIndexOutOfRange)

/-- 60_exceptions.md R261: after a fault every further step reports the same fault, whatever the host does to the keys
and `need_redraw` in between and whatever the random input delivers. It rests on D6 (log 8). -/
def Obligations.FaultIsPermanent : Prop :=
  ∀ (s : State) (f : Fault), step s = .fault f →
    (∀ moves : List HostMove, step (play moves s) = .fault f) ∧ (∀ n : Nat, step { s with rndCount := n } = .fault f)

/-! ### Reset, load and the invariant -/

/-- 10_state.md R39, 70_reset_and_hazards.md R292, R293: what reset leaves. The font bytes are general knowledge (log
1). -/
def Obligations.ResetValues : Prop :=
  (∀ r, State.reset.reg r = 0) ∧ State.reset.pc = 0x0200 ∧ State.reset.I = 0 ∧ State.reset.SP.val = 0 ∧
  (∀ j, State.reset.stackAt j = 0) ∧ State.reset.DT = 0 ∧ State.reset.ST = 0 ∧ State.reset.waiting = false ∧
  State.reset.needRedraw = false ∧ (∀ k, State.reset.key k = false) ∧ (∀ row col, State.reset.pixel row col = false) ∧
  (List.range 80).map State.reset.mem.read =
    [0xF0, 0x90, 0x90, 0x90, 0xF0, 0x20, 0x60, 0x20, 0x20, 0x70, 0xF0, 0x10, 0xF0, 0x80, 0xF0, 0xF0, 0x10, 0xF0, 0x10, 0xF0] ++
    [0x90, 0x90, 0xF0, 0x10, 0x10, 0xF0, 0x80, 0xF0, 0x10, 0xF0, 0xF0, 0x80, 0xF0, 0x90, 0xF0, 0xF0, 0x10, 0x20, 0x40, 0x40] ++
    [0xF0, 0x90, 0xF0, 0x90, 0xF0, 0xF0, 0x90, 0xF0, 0x10, 0xF0, 0xF0, 0x90, 0xF0, 0x90, 0x90, 0xE0, 0x90, 0xE0, 0x90, 0xE0] ++
    [0xF0, 0x80, 0x80, 0x80, 0xF0, 0xE0, 0x90, 0x90, 0x90, 0xE0, 0xF0, 0x80, 0xF0, 0x80, 0xF0, 0xF0, 0x80, 0xF0, 0x80, 0x80] ∧
  (∀ a, 0x050 ≤ a → State.reset.mem.read a = 0)

/-- 70_reset_and_hazards.md R296: the image of a ROM that fits lies at 0x200 and upward, every other byte keeps its
value, and nothing else changes. R296 speaks of the load after reset; that the load acts so on every state is the
model's choice (log 13), and that it writes memory only is R295. -/
def Obligations.LoadPlacesTheImage : Prop :=
  ∀ (rom : List Byte) (s : State), rom.length ≤ 3584 → ∃ t, load rom s = .loaded t ∧
    (∀ k, (h : k < rom.length) → t.mem.read (0x200 + k) = rom[k]) ∧
    SameMemOutside 0x200 rom.length s t ∧ t.pc = s.pc ∧ OnlyRegsIn [] { s with mem := t.mem } t

/-- 70_reset_and_hazards.md R297: a ROM of more than 3584 bytes is rejected, and then there is no loaded state. The
rejection is D12 (log 13). -/
def Obligations.OversizedRomIsRejected : Prop :=
  ∀ (rom : List Byte) (s : State), rom.length > 3584 → load rom s = .romTooLarge ∧ ∀ t, load rom s ≠ .loaded t

/-- The invariant of 10_state.md R38 holds at reset. The canonical form in it is the model's own (log 21). -/
def Obligations.ResetMeetsTheInvariant : Prop := Inv State.reset

/-- 10_state.md R38: every cycle step keeps the invariant. The canonical form is the model's own (log 21). -/
def Obligations.StepKeepsTheInvariant : Prop := ∀ s t : State, Inv s → step s = .next t → Inv t

/-- Every host action keeps the invariant (10_state.md R38, R41, R43). The canonical form in it is the model's own
(log 21). -/
def Obligations.HostActionKeepsTheInvariant : Prop := ∀ (a : HostAction) (s : State), Inv s → Inv (hostAct a s)

/-- Every state a run can reach, with any image and any moves of the host, meets the invariant (10_state.md R38). The
canonical form in the invariant is the model's own (log 21). -/
def Obligations.ReachableStatesMeetTheInvariant : Prop := ∀ s : State, Reachable s → Inv s

/-! ### Memory -/

/-- 20_memory.md R69: a read returns the last byte written there, and a write changes that byte only. -/
def Obligations.ReadAfterWrite : Prop :=
  ∀ (m : Memory) (a b : Nat) (v : Byte), (m.write a v).read b = if b = a then v else m.read b

/-- A write inside memory keeps the canonical form, and canonical memories that read the same are equal (the model's
own representation, log 21). -/
def Obligations.CanonicalMemory : Prop :=
  (∀ (m : Memory) (a : Nat) (v : Byte), m.wf → a < 4096 → (m.write a v).wf) ∧
  (∀ m n : Memory, m.wf → n.wf → (∀ a, m.read a = n.read a) → m = n)

/-- 20_memory.md R75: a word that LD [I],Vx stores right behind itself is what the next fetch reads. The spec marks it
as derived. -/
def Obligations.StoreIsSeenByTheNextFetch : Prop :=
  ∀ (s : State) (x : Reg), x.val ≥ 1 → s.I = s.pc + 2 → s.I.toNat + x.val ≤ 0xFFF →
    Completes (.stRegs x) s (fun t => t.fetch = .ok (wordOfBytes (s.reg 0) (s.reg 1)))

/-! ### What each piece of state is written by -/

/-- 10_state.md R24: how `pc` changes, completely. -/
def Obligations.ProgramCounterRule : Prop :=
  ∀ (i : Instr) (s t : State), exec i s = .next t →
    match i with
    | .jp addr | .call addr => t.pc.toNat = addr.toNat
    | .ret => ∃ j : Fin 16, j.val + 1 = s.SP.val ∧ t.pc = s.stackAt j + 2
    | .jpV0 addr => t.pc.toNat = addr.toNat + (s.reg 0).toNat
    | .seImm x kk => t.pc = if s.reg x = kk then s.pc + 4 else s.pc + 2
    | .sneImm x kk => t.pc = if s.reg x = kk then s.pc + 2 else s.pc + 4
    | .seReg x y => t.pc = if s.reg x = s.reg y then s.pc + 4 else s.pc + 2
    | .sneReg x y => t.pc = if s.reg x = s.reg y then s.pc + 2 else s.pc + 4
    | .skp x => ∃ k : Key, k.val = (s.reg x).toNat ∧ t.pc = if s.key k = true then s.pc + 4 else s.pc + 2
    | .sknp x => ∃ k : Key, k.val = (s.reg x).toNat ∧ t.pc = if s.key k = true then s.pc + 2 else s.pc + 4
    | .ldVxK _ => ((∀ k, s.key k = false) → t.pc = s.pc) ∧ ((∃ k, s.key k = true) → t.pc = s.pc + 2)
    | _ => t.pc = s.pc + 2

/-- 10_state.md R22: a general register that a completed instruction changed is one the rule lists as written by it. -/
def Obligations.OnlyListedRegistersAreWritten : Prop :=
  ∀ (i : Instr) (s t : State) (r : Reg), exec i s = .next t → t.reg r ≠ s.reg r →
    match i with
    | .ldImm x _ | .addImm x _ | .ldReg x _ | .orReg x _ | .andReg x _ | .xorReg x _ | .rnd x _ | .ldVxDT x => r = x
    | .addReg x _ | .subReg x _ | .subnReg x _ | .shr x | .shl x => r = x ∨ r = 15
    | .addI _ | .drw _ _ _ => r = 15
    | .ldVxK x => r = x ∧ ∃ k, s.key k = true
    | .ldRegs x => r ≤ x
    | _ => False

/-- The "written by" column of 10_state.md R37: I, SP, the stack, both timers, `waiting` and `need_redraw` are changed
by the listed handlers only, and no handler writes a key. -/
def Obligations.OnlyListedHandlersWriteSpecialRegisters : Prop :=
  ∀ (i : Instr) (s t : State), exec i s = .next t →
    (t.I ≠ s.I → (∃ a, i = .ldI a) ∨ (∃ x, i = .addI x) ∨ ∃ x, i = .ldF x) ∧
    (t.SP ≠ s.SP → (∃ a, i = .call a) ∨ i = .ret) ∧
    ((∃ j, t.stackAt j ≠ s.stackAt j) → ∃ a, i = .call a) ∧
    (t.DT ≠ s.DT → ∃ x, i = .ldDTVx x) ∧
    (t.ST ≠ s.ST → ∃ x, i = .ldSTVx x) ∧
    (t.waiting ≠ s.waiting → ∃ x, i = .ldVxK x) ∧
    (t.needRedraw ≠ s.needRedraw → t.needRedraw = true ∧ ∃ x y n, i = .drw x y n) ∧
    (∀ k, t.key k = s.key k)

/-- 20_memory.md R67 and 10_state.md R31: only LD B,Vx and LD [I],Vx change memory, only CLS and DRW change the
framebuffer. -/
def Obligations.OnlyListedHandlersWriteMemoryAndFramebuffer : Prop :=
  ∀ (i : Instr) (s t : State), exec i s = .next t →
    ((∃ a, t.mem.read a ≠ s.mem.read a) → ∃ x, i = .ldB x ∨ i = .stRegs x) ∧
    ((∃ row col, t.pixel row col ≠ s.pixel row col) → i = .cls ∨ ∃ x y n, i = .drw x y n)

/-- 40_cycle.md R129: the keys are read only by SKP, SKNP and LD Vx,K, the random input only by RND: any other
instruction has the same outcome with other keys, or at another position of the random input. That the random byte is
an input sampled by RND only is D10, and its position is the model's own count of samples (log 3). -/
def Obligations.InputsAreReadOnlyByTheListed : Prop :=
  (∀ (i : Instr) (s : State) (k : Vector Bool 16),
    (∀ x, i ≠ .skp x) → (∀ x, i ≠ .sknp x) → (∀ x, i ≠ .ldVxK x) →
    (∀ t, exec i s = .next t → exec i { s with K := k } = .next { t with K := k }) ∧
    (∀ f, exec i s = .fault f → exec i { s with K := k } = .fault f)) ∧
  (∀ (i : Instr) (s : State) (n : Nat), (∀ x kk, i ≠ .rnd x kk) →
    (∀ t, exec i s = .next t → exec i { s with rndCount := n } = .next { t with rndCount := n }) ∧
    (∀ f, exec i s = .fault f → exec i { s with rndCount := n } = .fault f))

/-- 10_state.md R35: `ST` and `need_redraw` are state no program can read: a step from states that differ only there
ends in states that differ only there, or in the same fault. -/
def Obligations.SoundTimerAndRedrawAreUnreadable : Prop :=
  ∀ (s : State) (st : Byte) (b : Bool),
    (∀ t, step s = .next t → ∃ u, step { s with ST := st, needRedraw := b } = .next u ∧
      u = { t with ST := u.ST, needRedraw := u.needRedraw }) ∧
    (∀ f, step s = .fault f → step { s with ST := st, needRedraw := b } = .fault f)

/-! ### Immediate, copy, logic, arithmetic, shift and random instructions -/

/-- 42_alu.md R161, R162. -/
def Obligations.ImmediateLoadAndAdd : Prop :=
  ∀ (s : State) (x : Reg) (kk : Byte),
    decode (BitVec.ofNat 16 (0x6000 + 0x100 * x.val + kk.toNat)) = some (.ldImm x kk) ∧
    decode (BitVec.ofNat 16 (0x7000 + 0x100 * x.val + kk.toNat)) = some (.addImm x kk) ∧
    Completes (.ldImm x kk) s (fun t => t.reg x = kk ∧ t.pc = s.pc + 2 ∧ OnlyRegsIn [x] s t) ∧
    Completes (.addImm x kk) s (fun t => (t.reg x).toNat = ((s.reg x).toNat + kk.toNat) % 256 ∧
      t.pc = s.pc + 2 ∧ OnlyRegsIn [x] s t)

/-- 42_alu.md R165 to R168: VF is not written unless it is Vx. -/
def Obligations.CopyAndLogic : Prop :=
  ∀ (s : State) (x y : Reg),
    decode (BitVec.ofNat 16 (0x8000 + 0x100 * x.val + 0x10 * y.val)) = some (.ldReg x y) ∧
    decode (BitVec.ofNat 16 (0x8001 + 0x100 * x.val + 0x10 * y.val)) = some (.orReg x y) ∧
    decode (BitVec.ofNat 16 (0x8002 + 0x100 * x.val + 0x10 * y.val)) = some (.andReg x y) ∧
    decode (BitVec.ofNat 16 (0x8003 + 0x100 * x.val + 0x10 * y.val)) = some (.xorReg x y) ∧
    Completes (.ldReg x y) s (fun t => t.reg x = s.reg y ∧ t.pc = s.pc + 2 ∧ OnlyRegsIn [x] s t) ∧
    Completes (.orReg x y) s (fun t => t.reg x = s.reg x ||| s.reg y ∧ t.pc = s.pc + 2 ∧ OnlyRegsIn [x] s t) ∧
    Completes (.andReg x y) s (fun t => t.reg x = s.reg x &&& s.reg y ∧ t.pc = s.pc + 2 ∧ OnlyRegsIn [x] s t) ∧
    Completes (.xorReg x y) s (fun t => t.reg x = s.reg x ^^^ s.reg y ∧ t.pc = s.pc + 2 ∧ OnlyRegsIn [x] s t)

/-- 42_alu.md R169: the sum modulo 256 goes to Vx and the carry to VF, the carry last, so it wins when x is 0xF. The
order with VF as an operand is D7 (log 9). -/
def Obligations.AddRegisters : Prop :=
  ∀ (s : State) (x y : Reg),
    decode (BitVec.ofNat 16 (0x8004 + 0x100 * x.val + 0x10 * y.val)) = some (.addReg x y) ∧
    Completes (.addReg x y) s (fun t =>
      (x ≠ 15 → (t.reg x).toNat = ((s.reg x).toNat + (s.reg y).toNat) % 256) ∧
      t.reg 15 = (if (s.reg x).toNat + (s.reg y).toNat > 255 then 1 else 0) ∧
      t.pc = s.pc + 2 ∧ OnlyRegsIn [x, 15] s t)

/-- 42_alu.md R170: VF is written first, 1 on strictly greater, and the difference reads the registers after that. The
order with VF as an operand is D7 (log 9). -/
def Obligations.SubtractRegisters : Prop :=
  ∀ (s : State) (x y : Reg),
    decode (BitVec.ofNat 16 (0x8005 + 0x100 * x.val + 0x10 * y.val)) = some (.subReg x y) ∧
    Completes (.subReg x y) s (fun t =>
      let flag : Byte := if (s.reg x).toNat > (s.reg y).toNat then 1 else 0
      (x ≠ 15 → y ≠ 15 → t.reg 15 = flag ∧ t.reg x = s.reg x - s.reg y) ∧
      (x ≠ 15 → y = 15 → t.reg 15 = flag ∧ t.reg x = s.reg x - flag) ∧
      (x = 15 → y ≠ 15 → t.reg 15 = flag - s.reg y) ∧
      (x = 15 → y = 15 → t.reg 15 = 0) ∧
      t.pc = s.pc + 2 ∧ OnlyRegsIn [x, 15] s t)

/-- 42_alu.md R172: VF is written first, 1 on strictly greater, and the difference reads the registers after that. The
order with VF as an operand is D7 (log 9). -/
def Obligations.ReverseSubtractRegisters : Prop :=
  ∀ (s : State) (x y : Reg),
    decode (BitVec.ofNat 16 (0x8007 + 0x100 * x.val + 0x10 * y.val)) = some (.subnReg x y) ∧
    Completes (.subnReg x y) s (fun t =>
      let flag : Byte := if (s.reg y).toNat > (s.reg x).toNat then 1 else 0
      (x ≠ 15 → y ≠ 15 → t.reg 15 = flag ∧ t.reg x = s.reg y - s.reg x) ∧
      (x ≠ 15 → y = 15 → t.reg 15 = flag ∧ t.reg x = flag - s.reg x) ∧
      (x = 15 → y ≠ 15 → t.reg 15 = s.reg y - flag) ∧
      (x = 15 → y = 15 → t.reg 15 = 0) ∧
      t.pc = s.pc + 2 ∧ OnlyRegsIn [x, 15] s t)

/-- 42_alu.md R171: for every value of the ignored y field; VF is bit 0 before the shift, and 0 when x is 0xF. The
ignored y is D3 (log 15), the order with VF as the operand D7 (log 9). -/
def Obligations.ShiftRight : Prop :=
  ∀ (s : State) (x y : Reg),
    decode (BitVec.ofNat 16 (0x8006 + 0x100 * x.val + 0x10 * y.val)) = some (.shr x) ∧
    Completes (.shr x) s (fun t =>
      (x ≠ 15 → (t.reg 15).toNat = (s.reg x).toNat % 2 ∧ (t.reg x).toNat = (s.reg x).toNat / 2) ∧
      (x = 15 → t.reg 15 = 0) ∧ t.pc = s.pc + 2 ∧ OnlyRegsIn [x, 15] s t)

/-- 42_alu.md R173: for every value of the ignored y field; VF is bit 7 before the shift, and twice that when x is
0xF. The ignored y is D3 (log 15), the order with VF as the operand D7 (log 9). -/
def Obligations.ShiftLeft : Prop :=
  ∀ (s : State) (x y : Reg),
    decode (BitVec.ofNat 16 (0x800E + 0x100 * x.val + 0x10 * y.val)) = some (.shl x) ∧
    Completes (.shl x) s (fun t =>
      (x ≠ 15 → (t.reg 15).toNat = (s.reg x).toNat / 128 ∧ (t.reg x).toNat = (s.reg x).toNat * 2 % 256) ∧
      (x = 15 → t.reg 15 = if (s.reg 15).toNat ≥ 128 then 2 else 0) ∧ t.pc = s.pc + 2 ∧ OnlyRegsIn [x, 15] s t)

/-- 42_alu.md R174: Vx gets the random byte AND kk, for every value of the byte, so it has no bit that kk has not;
each execution samples one byte. The count of samples is the model's own (log 3). -/
def Obligations.RandomByteIsMasked : Prop :=
  ∀ (s : State) (x : Reg) (kk : Byte),
    decode (BitVec.ofNat 16 (0xC000 + 0x100 * x.val + kk.toNat)) = some (.rnd x kk) ∧
    Completes (.rnd x kk) s (fun t =>
      t.reg x = Config.rndByte s.rndCount &&& kk ∧ (t.reg x).toNat ≤ kk.toNat ∧ t.reg x &&& ~~~kk = 0 ∧
      t.rndCount = s.rndCount + 1 ∧ t.pc = s.pc + 2 ∧ OnlyRegsIn [x] { s with rndCount := t.rndCount } t)

/-! ### Control transfer -/

/-- 41_control_transfer.md R141, R148. -/
def Obligations.Jumps : Prop :=
  ∀ (s : State) (addr : Addr),
    decode (BitVec.ofNat 16 (0x1000 + addr.toNat)) = some (.jp addr) ∧
    decode (BitVec.ofNat 16 (0xB000 + addr.toNat)) = some (.jpV0 addr) ∧
    Completes (.jp addr) s (fun t => t.pc.toNat = addr.toNat ∧ OnlyRegsIn [] s t) ∧
    Completes (.jpV0 addr) s (fun t => t.pc.toNat = addr.toNat + (s.reg 0).toNat ∧ OnlyRegsIn [] s t)

/-- 41_control_transfer.md R142: the slot at SP gets the address of the CALL itself; a full stack is StackOverflow. -/
def Obligations.CallPushesItsOwnAddress : Prop :=
  ∀ (s : State) (addr : Addr),
    decode (BitVec.ofNat 16 (0x2000 + addr.toNat)) = some (.call addr) ∧
    (s.SP.val = 16 → exec (.call addr) s = .fault .stackOverflow) ∧
    (∀ j : Fin 16, s.SP.val = j.val → Completes (.call addr) s (fun t =>
      t.pc.toNat = addr.toNat ∧ t.SP.val = s.SP.val + 1 ∧ t.stackAt j = s.pc ∧
      (∀ k, k ≠ j → t.stackAt k = s.stackAt k) ∧
      OnlyRegsIn [] { s with SP := t.SP, Stack := t.Stack } t))

/-- 41_control_transfer.md R140: the popped value plus 2 goes to `pc` and the slot keeps its value; an empty stack is
StackUnderflow. -/
def Obligations.ReturnAddsTwo : Prop :=
  ∀ s : State,
    decode 0x00EE = some .ret ∧
    (s.SP.val = 0 → exec .ret s = .fault .stackUnderflow) ∧
    (∀ j : Fin 16, s.SP.val = j.val + 1 → Completes .ret s (fun t =>
      t.pc = s.stackAt j + 2 ∧ t.SP.val = j.val ∧ OnlyRegsIn [] { s with SP := t.SP } t))

/-- 41_control_transfer.md R142: CALL at P, then RET with the stack as CALL left it, resumes at P + 2 with SP as
before. -/
def Obligations.ReturnResumesAfterTheCall : Prop :=
  ∀ (s : State) (addr : Addr), s.SP.val < 16 → Completes (.call addr) s (fun t =>
    ∀ u : State, u.SP = t.SP → u.Stack = t.Stack → Completes .ret u (fun v => v.pc = s.pc + 2 ∧ v.SP = s.SP))

/-- 41_control_transfer.md R143, R144, R147. -/
def Obligations.SkipOnImmediate : Prop :=
  ∀ (s : State) (x : Reg) (kk : Byte),
    decode (BitVec.ofNat 16 (0x3000 + 0x100 * x.val + kk.toNat)) = some (.seImm x kk) ∧
    decode (BitVec.ofNat 16 (0x4000 + 0x100 * x.val + kk.toNat)) = some (.sneImm x kk) ∧
    Completes (.seImm x kk) s (fun t =>
      t.pc = (if s.reg x = kk then s.pc + 4 else s.pc + 2) ∧ OnlyRegsIn [] s t) ∧
    Completes (.sneImm x kk) s (fun t =>
      t.pc = (if s.reg x = kk then s.pc + 2 else s.pc + 4) ∧ OnlyRegsIn [] s t)

/-- 41_control_transfer.md R145, R146, for every value of the ignored n field. That n is ignored is D22 (log 15). -/
def Obligations.SkipOnRegister : Prop :=
  ∀ (s : State) (x y : Reg) (n : Nat), n ≤ 15 →
    decode (BitVec.ofNat 16 (0x5000 + 0x100 * x.val + 0x10 * y.val + n)) = some (.seReg x y) ∧
    decode (BitVec.ofNat 16 (0x9000 + 0x100 * x.val + 0x10 * y.val + n)) = some (.sneReg x y) ∧
    Completes (.seReg x y) s (fun t =>
      t.pc = (if s.reg x = s.reg y then s.pc + 4 else s.pc + 2) ∧ OnlyRegsIn [] s t) ∧
    Completes (.sneReg x y) s (fun t =>
      t.pc = (if s.reg x = s.reg y then s.pc + 2 else s.pc + 4) ∧ OnlyRegsIn [] s t)

/-- 41_control_transfer.md R147: a skip instruction that completes adds 2, and 2 again exactly when its condition
holds, writes no register or flag, and does not look at memory, so not at the instruction it may skip. -/
def Obligations.SkipPattern : Prop :=
  ∀ (i : Instr) (s t : State) (c : Prop), skipCondition s i = some c → exec i s = .next t →
    (c → t.pc = s.pc + 2 + 2) ∧ (¬ c → t.pc = s.pc + 2) ∧ OnlyRegsIn [] s t ∧
    ∀ m : Memory, exec i { s with mem := m } = .next { t with mem := m }

/-! ### Keypad and timers -/

/-- 45_keypad_timers.md R230, R231, R237: the key is the whole value of Vx, and a value above 15 is
KeyIndexOutOfRange. The fault is D9 (log 11). -/
def Obligations.SkipOnKey : Prop :=
  ∀ (s : State) (x : Reg),
    decode (BitVec.ofNat 16 (0xE09E + 0x100 * x.val)) = some (.skp x) ∧
    decode (BitVec.ofNat 16 (0xE0A1 + 0x100 * x.val)) = some (.sknp x) ∧
    ((s.reg x).toNat > 15 →
      exec (.skp x) s = .fault .keyIndexOutOfRange ∧ exec (.sknp x) s = .fault .keyIndexOutOfRange) ∧
    (∀ k : Key, (s.reg x).toNat = k.val →
      Completes (.skp x) s (fun t =>
        t.pc = (if s.key k = true then s.pc + 4 else s.pc + 2) ∧ OnlyRegsIn [] s t) ∧
      Completes (.sknp x) s (fun t =>
        t.pc = (if s.key k = true then s.pc + 2 else s.pc + 4) ∧ OnlyRegsIn [] s t))

/-- 45_keypad_timers.md R232: with no key pressed LD Vx,K sets `waiting` and changes nothing else; otherwise Vx gets
the least pressed key, `waiting` is cleared and `pc` advances. Whether `waiting` was set makes no difference. The scan
of the first execution is D11 (log 12). -/
def Obligations.KeyWaitTakesTheLowestKey : Prop :=
  ∀ (s : State) (x : Reg),
    decode (BitVec.ofNat 16 (0xF00A + 0x100 * x.val)) = some (.ldVxK x) ∧
    ((∀ k, s.key k = false) → Completes (.ldVxK x) s (fun t =>
      t.waiting = true ∧ t.pc = s.pc ∧ OnlyRegsIn [] { s with waiting := t.waiting } t)) ∧
    (∀ k, s.key k = true → (∀ j, j < k → s.key j = false) → Completes (.ldVxK x) s (fun t =>
      (t.reg x).toNat = k.val ∧ t.waiting = false ∧ t.pc = s.pc + 2 ∧
      OnlyRegsIn [x] { s with waiting := t.waiting } t))

/-- 45_keypad_timers.md R233: the table of the keypad wait machine, by steps. An instruction other than LD Vx,K keeps
Running; LD Vx,K with no key holds `pc` and both timers and ends waiting; with a key it ends Running and the timers
count in that same cycle. The count on the cycle that finds a key is D5, the first scan D11 (log 12). -/
def Obligations.KeypadWaitMachine : Prop :=
  ∀ (s : State) (i : Instr), Fetches s i →
    ((∀ x, i ≠ .ldVxK x) → s.waiting = false → ∀ t, step s = .next t → t.waiting = false) ∧
    (∀ x, i = .ldVxK x → (∀ k, s.key k = false) → ∃ t, step s = .next t ∧ t.waiting = true ∧ t.pc = s.pc ∧
      t.DT = s.DT ∧ t.ST = s.ST ∧ OnlyRegsIn [] { s with waiting := t.waiting } t) ∧
    (∀ x k, i = .ldVxK x → s.key k = true → (∀ j, j < k → s.key j = false) → ∃ t, step s = .next t ∧
      t.waiting = false ∧ t.pc = s.pc + 2 ∧ (t.reg x).toNat = k.val ∧
      t.DT.toNat = s.DT.toNat - 1 ∧ t.ST.toNat = s.ST.toNat - 1)

/-- 45_keypad_timers.md R233, "waits indefinitely": any number of steps with no key pressed leaves everything but
`waiting` as it was, and every one of them completes. The scan of the first execution is D11 (log 12). -/
def Obligations.KeyWaitHoldsWithoutAKey : Prop :=
  ∀ (s : State) (x : Reg) (k : Nat), Fetches s (.ldVxK x) → (∀ j, s.key j = false) →
    Host.Core.run Sys2Proof.core (k + 1) s = .next { s with waiting := true }

/-- 45_keypad_timers.md R234, R235, R236: the handlers of the timer instructions, each before the timer step. -/
def Obligations.TimerAccess : Prop :=
  ∀ (s : State) (x : Reg),
    decode (BitVec.ofNat 16 (0xF007 + 0x100 * x.val)) = some (.ldVxDT x) ∧
    decode (BitVec.ofNat 16 (0xF015 + 0x100 * x.val)) = some (.ldDTVx x) ∧
    decode (BitVec.ofNat 16 (0xF018 + 0x100 * x.val)) = some (.ldSTVx x) ∧
    Completes (.ldVxDT x) s (fun t => t.reg x = s.DT ∧ t.pc = s.pc + 2 ∧ OnlyRegsIn [x] s t) ∧
    Completes (.ldDTVx x) s (fun t => t.DT = s.reg x ∧ t.pc = s.pc + 2 ∧ OnlyRegsIn [] { s with DT := t.DT } t) ∧
    Completes (.ldSTVx x) s (fun t => t.ST = s.reg x ∧ t.pc = s.pc + 2 ∧ OnlyRegsIn [] { s with ST := t.ST } t)

/-- 40_cycle.md R125: a timer that is written counts down in its own cycle, and a read sees the value before this
cycle's count. In a state that is not waiting. The spec marks it as derived. -/
def Obligations.TimerWritesCountInTheirOwnCycle : Prop :=
  ∀ (s : State) (x : Reg), s.waiting = false →
    (Fetches s (.ldDTVx x) → ∃ t, step s = .next t ∧ t.DT.toNat = (s.reg x).toNat - 1 ∧ t.ST.toNat = s.ST.toNat - 1) ∧
    (Fetches s (.ldSTVx x) → ∃ t, step s = .next t ∧ t.ST.toNat = (s.reg x).toNat - 1 ∧ t.DT.toNat = s.DT.toNat - 1) ∧
    (Fetches s (.ldVxDT x) → ∃ t, step s = .next t ∧ t.reg x = s.DT ∧ t.DT.toNat = s.DT.toNat - 1)

/-! ### Index register and memory instructions -/

/-- 43_index_memory.md R190, R193: the whole of Vx counts in LD F,Vx. -/
def Obligations.IndexLoads : Prop :=
  ∀ (s : State) (x : Reg) (addr : Addr),
    decode (BitVec.ofNat 16 (0xA000 + addr.toNat)) = some (.ldI addr) ∧
    decode (BitVec.ofNat 16 (0xF029 + 0x100 * x.val)) = some (.ldF x) ∧
    Completes (.ldI addr) s (fun t => t.I.toNat = addr.toNat ∧ t.pc = s.pc + 2 ∧ OnlyRegsIn [] { s with I := t.I } t) ∧
    Completes (.ldF x) s (fun t => t.I.toNat = (s.reg x).toNat * 5 ∧ t.pc = s.pc + 2 ∧
      OnlyRegsIn [] { s with I := t.I } t)

/-- 43_index_memory.md R192: VF is 1 exactly when the new I exceeds 0x0F00, and a sum that does not fit 16 bits is
MemoryOutOfBounds. The fault is D4 (log 7). -/
def Obligations.IndexAddSetsTheFlag : Prop :=
  ∀ (s : State) (x : Reg),
    decode (BitVec.ofNat 16 (0xF01E + 0x100 * x.val)) = some (.addI x) ∧
    (s.I.toNat + (s.reg x).toNat > 0xFFFF → exec (.addI x) s = .fault .memoryOutOfBounds) ∧
    (s.I.toNat + (s.reg x).toNat ≤ 0xFFFF → Completes (.addI x) s (fun t =>
      t.I.toNat = s.I.toNat + (s.reg x).toNat ∧
      t.reg 15 = (if s.I.toNat + (s.reg x).toNat > 0x0F00 then 1 else 0) ∧
      t.pc = s.pc + 2 ∧ OnlyRegsIn [15] { s with I := t.I } t))

/-- 43_index_memory.md R191: an instruction that accesses memory at I and upward faults exactly when its last address
is above 0xFFF, and then the step changes nothing; it never changes I. That the faulting step changes nothing is D6
(log 8). -/
def Obligations.AddressesAreCheckedFirst : Prop :=
  ∀ (i : Instr) (s : State) (k : Nat), lastOffset i = some k →
    (s.I.toNat + k > 0xFFF → exec i s = .fault .memoryOutOfBounds ∧
      (Fetches s i → cycle s = (s, .fault .memoryOutOfBounds))) ∧
    (s.I.toNat + k ≤ 0xFFF → Completes i s (fun t => t.I = s.I))

/-- 43_index_memory.md R194: the three decimal digits, hundreds first; nothing is written when one of the three bytes
is above 0xFFF. That a fault writes nothing is D6 (log 8). -/
def Obligations.DecimalDigitsAreStored : Prop :=
  ∀ (s : State) (x : Reg),
    decode (BitVec.ofNat 16 (0xF033 + 0x100 * x.val)) = some (.ldB x) ∧
    (s.I.toNat + 2 > 0xFFF → exec (.ldB x) s = .fault .memoryOutOfBounds) ∧
    (s.I.toNat + 2 ≤ 0xFFF → Completes (.ldB x) s (fun t =>
      (t.mem.read (s.ea 0)).toNat = (s.reg x).toNat / 100 ∧
      (t.mem.read (s.ea 1)).toNat = (s.reg x).toNat / 10 % 10 ∧
      (t.mem.read (s.ea 2)).toNat = (s.reg x).toNat % 10 ∧
      SameMemOutside (s.ea 0) 3 s t ∧ t.pc = s.pc + 2 ∧ OnlyRegsIn [] { s with mem := t.mem } t))

/-- 43_index_memory.md R195: registers 0 to x, x included, go to memory from I upward and I is unmodified; nothing is
written when the last byte is above 0xFFF. That a fault writes nothing is D6 (log 8). -/
def Obligations.RegistersAreStored : Prop :=
  ∀ (s : State) (x : Reg),
    decode (BitVec.ofNat 16 (0xF055 + 0x100 * x.val)) = some (.stRegs x) ∧
    (s.I.toNat + x.val > 0xFFF → exec (.stRegs x) s = .fault .memoryOutOfBounds) ∧
    (s.I.toNat + x.val ≤ 0xFFF → Completes (.stRegs x) s (fun t =>
      (∀ r : Reg, r ≤ x → t.mem.read (s.ea r.val) = s.reg r) ∧
      SameMemOutside (s.ea 0) (x.val + 1) s t ∧ t.pc = s.pc + 2 ∧ OnlyRegsIn [] { s with mem := t.mem } t))

/-- 43_index_memory.md R196: registers 0 to x come from memory at I and upward, the others and I are untouched; no
register is written when the last byte is above 0xFFF. That a fault writes nothing is D6 (log 8). -/
def Obligations.RegistersAreLoaded : Prop :=
  ∀ (s : State) (x : Reg),
    decode (BitVec.ofNat 16 (0xF065 + 0x100 * x.val)) = some (.ldRegs x) ∧
    (s.I.toNat + x.val > 0xFFF → exec (.ldRegs x) s = .fault .memoryOutOfBounds) ∧
    (s.I.toNat + x.val ≤ 0xFFF → Completes (.ldRegs x) s (fun t =>
      (∀ r : Reg, r ≤ x → t.reg r = s.mem.read (s.ea r.val)) ∧ (∀ r : Reg, x < r → t.reg r = s.reg r) ∧
      t.pc = s.pc + 2 ∧ OnlyRegs s t))

/-! ### Display -/

/-- 44_display.md R210: every cell is 0 afterwards, and `need_redraw` and VF are left as they were. -/
def Obligations.ClearScreen : Prop :=
  ∀ s : State,
    decode 0x00E0 = some .cls ∧
    Completes .cls s (fun t => (∀ row col, t.pixel row col = false) ∧ t.pc = s.pc + 2 ∧
      OnlyRegsIn [] { s with FB := t.FB } t)

/-- 44_display.md R211 to R216, R218, without a loop (R217): each cell under a sprite bit of 1 is inverted, every
other cell is unchanged; VF is OR-ed with 1 exactly when such a cell held 1; `need_redraw` is set; the coordinates are
the registers on entry; with a sprite byte above 0xFFF nothing happens but the fault, and n = 0 reads no byte. The
sampling of the coordinates is D8 (log 10). That a fault writes nothing is D6 (log 8). -/
def Obligations.DrawXorsTheSprite : Prop :=
  ∀ (s : State) (x y : Reg) (n : Nat), n ≤ 15 →
    decode (BitVec.ofNat 16 (0xD000 + 0x100 * x.val + 0x10 * y.val + n)) = some (.drw x y n) ∧
    (n > 0 → s.I.toNat + n - 1 > 0xFFF → exec (.drw x y n) s = .fault .memoryOutOfBounds) ∧
    (n = 0 ∨ s.I.toNat + n - 1 ≤ 0xFFF → Completes (.drw x y n) s (fun t =>
      (∀ row col, SpriteCovers s (s.reg x) (s.reg y) n row col → t.pixel row col = !s.pixel row col) ∧
      (∀ row col, ¬ SpriteCovers s (s.reg x) (s.reg y) n row col → t.pixel row col = s.pixel row col) ∧
      ((∃ row col, SpriteCovers s (s.reg x) (s.reg y) n row col ∧ s.pixel row col = true) →
        t.reg 15 = s.reg 15 ||| 1) ∧
      ((∀ row col, SpriteCovers s (s.reg x) (s.reg y) n row col → s.pixel row col = false) → t.reg 15 = s.reg 15) ∧
      t.needRedraw = true ∧ t.pc = s.pc + 2 ∧
      OnlyRegsIn [15] { s with FB := t.FB, needRedraw := t.needRedraw } t))

/-- 44_display.md R217: drawing the same sprite again at the same place restores the framebuffer, and VF is 1 after
the second draw if it was 0 or 1 before the first and the sprite has a bit set. The coordinates are in registers
other than VF, which the first draw may change. -/
def Obligations.DrawingTwiceRestores : Prop :=
  ∀ (s t u : State) (x y : Reg) (n : Nat), n ≤ 15 → x ≠ 15 → y ≠ 15 →
    exec (.drw x y n) s = .next t → exec (.drw x y n) t = .next u →
    SameFB s u ∧
    ((∃ row col, SpriteCovers s (s.reg x) (s.reg y) n row col) → (s.reg 15).toNat ≤ 1 → u.reg 15 = 1)

/-! ### The end of a run, and placing an instruction -/

/-- 40_cycle.md R130: a JP to its own address with both timers 0 is a fixed point of the step. That this counts as the
end of a run is the model's own definition (log 18). -/
def Obligations.IdleIsAFixedPoint : Prop := ∀ s : State, Idle s → step s = .next s

/-- 40_cycle.md R130, 60_exceptions.md R263: in a JP to its own address each step changes nothing but the timers, which
have counted down by k after k steps, each with its floor at 0. In a state that is not waiting. -/
def Obligations.SelfJumpCountsTheTimersDown : Prop :=
  ∀ (s : State) (addr : Addr) (k : Nat), s.waiting = false → Fetches s (.jp addr) → addr.toNat = s.pc.toNat →
    ∃ t, Host.Core.run Sys2Proof.core k s = .next t ∧
      t.DT.toNat = s.DT.toNat - k ∧ t.ST.toNat = s.ST.toNat - k ∧
      t.pc = s.pc ∧ OnlyRegsIn [] { s with DT := t.DT, ST := t.ST } t

/-- The model's way to place one instruction (log 13, log 22): it lies where the next fetch reads it, and nothing else
of the state changes. -/
def Obligations.PlacedWordIsFetched : Prop :=
  ∀ (s : State) (w : Nat), s.pc.toNat ≤ 0x0FFE →
    (s.withFetchWord 16 w).fetch = .ok (BitVec.ofNat 16 w) ∧
    SameMemOutside s.pc.toNat 2 s (s.withFetchWord 16 w) ∧
    s.withFetchWord 16 w = { s with mem := (s.withFetchWord 16 w).mem }
end

