-- ==== Sys2Proof/Laws/Decode.lean ====
section
/-! SUPPORT. The fields of a word as arithmetic on its number, the fields of an encoded word, and the words the decoder
refuses. -/

namespace Sys2Proof

/-! ### Fields as arithmetic -/

theorem fieldFamily_eq (w : Word) : fieldFamily w = w.toNat / 0x1000 := by
  have := w.isLt
  simp only [fieldFamily, BitVec.extractLsb'_toNat, Nat.shiftRight_eq_div_pow]
  omega

theorem fieldX_val (w : Word) : (fieldX w).val = w.toNat / 0x100 % 16 := by
  simp only [fieldX, BitVec.extractLsb'_toNat, Nat.shiftRight_eq_div_pow]

theorem fieldY_val (w : Word) : (fieldY w).val = w.toNat / 0x10 % 16 := by
  simp only [fieldY, BitVec.extractLsb'_toNat, Nat.shiftRight_eq_div_pow]

theorem fieldN_eq (w : Word) : fieldN w = w.toNat % 16 := by
  simp only [fieldN, BitVec.extractLsb'_toNat, Nat.shiftRight_zero]

theorem fieldKk_toNat (w : Word) : (fieldKk w).toNat = w.toNat % 256 := by
  simp only [fieldKk, BitVec.extractLsb'_toNat, Nat.shiftRight_zero]

theorem fieldAddr_toNat (w : Word) : (fieldAddr w).toNat = w.toNat % 0x1000 := by
  simp only [fieldAddr, BitVec.extractLsb'_toNat, Nat.shiftRight_zero]

theorem fieldN_le (w : Word) : fieldN w ≤ 15 := by
  rw [fieldN_eq]
  omega

theorem fieldX_eq_of {w : Word} {x : Reg} (h : w.toNat / 0x100 % 16 = x.val) : fieldX w = x :=
  Fin.ext ((fieldX_val w).trans h)

theorem fieldY_eq_of {w : Word} {y : Reg} (h : w.toNat / 0x10 % 16 = y.val) : fieldY w = y :=
  Fin.ext ((fieldY_val w).trans h)

theorem fieldKk_eq_of {w : Word} {kk : Byte} (h : w.toNat % 256 = kk.toNat) : fieldKk w = kk :=
  BitVec.eq_of_toNat_eq ((fieldKk_toNat w).trans h)

theorem fieldAddr_eq_of {w : Word} {addr : Addr} (h : w.toNat % 0x1000 = addr.toNat) : fieldAddr w = addr :=
  BitVec.eq_of_toNat_eq ((fieldAddr_toNat w).trans h)

/-! ### The numbers of the four formats with operands (30_encoding.md R92) -/

theorem encAddr_toNat {f : Nat} (hf : f < 16) (addr : Addr) : (encAddr f addr).toNat = f * 0x1000 + addr.toNat := by
  have := addr.isLt
  rw [encAddr, BitVec.toNat_ofNat]
  omega

theorem encXkk_toNat {f : Nat} (hf : f < 16) (x : Reg) (kk : Byte) :
    (encXkk f x kk).toNat = f * 0x1000 + x.val * 0x100 + kk.toNat := by
  have := kk.isLt
  have := x.isLt
  rw [encXkk, BitVec.toNat_ofNat]
  omega

theorem encXyn_toNat {f : Nat} (hf : f < 16) (x y : Reg) (n : Nat) :
    (encXyn f x y n).toNat = f * 0x1000 + x.val * 0x100 + y.val * 0x10 + n % 16 := by
  have := x.isLt
  have := y.isLt
  rw [encXyn, BitVec.toNat_ofNat]
  omega

theorem encXsel_toNat {f sel : Nat} (hf : f < 16) (hs : sel < 256) (x : Reg) :
    (encXsel f x sel).toNat = f * 0x1000 + x.val * 0x100 + sel := by
  have := x.isLt
  rw [encXsel, BitVec.toNat_ofNat]
  omega

/-! ### One lemma per first-level family (30_encoding.md R95) -/

theorem decode_family0 {w : Word} (h : w.toNat / 0x1000 = 0x0) : decode w = decodeFamily0 w := by
  rw [← fieldFamily_eq] at h
  simp [decode, h]

theorem decode_family1 {w : Word} (h : w.toNat / 0x1000 = 0x1) : decode w = some (.jp (fieldAddr w)) := by
  rw [← fieldFamily_eq] at h
  simp [decode, h]

theorem decode_family2 {w : Word} (h : w.toNat / 0x1000 = 0x2) : decode w = some (.call (fieldAddr w)) := by
  rw [← fieldFamily_eq] at h
  simp [decode, h]

theorem decode_family3 {w : Word} (h : w.toNat / 0x1000 = 0x3) : decode w = some (.seImm (fieldX w) (fieldKk w)) := by
  rw [← fieldFamily_eq] at h
  simp [decode, h]

theorem decode_family4 {w : Word} (h : w.toNat / 0x1000 = 0x4) : decode w = some (.sneImm (fieldX w) (fieldKk w)) := by
  rw [← fieldFamily_eq] at h
  simp [decode, h]

theorem decode_family5 {w : Word} (h : w.toNat / 0x1000 = 0x5) : decode w = some (.seReg (fieldX w) (fieldY w)) := by
  rw [← fieldFamily_eq] at h
  simp [decode, h]

theorem decode_family6 {w : Word} (h : w.toNat / 0x1000 = 0x6) : decode w = some (.ldImm (fieldX w) (fieldKk w)) := by
  rw [← fieldFamily_eq] at h
  simp [decode, h]

theorem decode_family7 {w : Word} (h : w.toNat / 0x1000 = 0x7) : decode w = some (.addImm (fieldX w) (fieldKk w)) := by
  rw [← fieldFamily_eq] at h
  simp [decode, h]

theorem decode_family8 {w : Word} (h : w.toNat / 0x1000 = 0x8) : decode w = decodeFamily8 w := by
  rw [← fieldFamily_eq] at h
  simp [decode, h]

theorem decode_family9 {w : Word} (h : w.toNat / 0x1000 = 0x9) : decode w = some (.sneReg (fieldX w) (fieldY w)) := by
  rw [← fieldFamily_eq] at h
  simp [decode, h]

theorem decode_familyA {w : Word} (h : w.toNat / 0x1000 = 0xA) : decode w = some (.ldI (fieldAddr w)) := by
  rw [← fieldFamily_eq] at h
  simp [decode, h]

theorem decode_familyB {w : Word} (h : w.toNat / 0x1000 = 0xB) : decode w = some (.jpV0 (fieldAddr w)) := by
  rw [← fieldFamily_eq] at h
  simp [decode, h]

theorem decode_familyC {w : Word} (h : w.toNat / 0x1000 = 0xC) : decode w = some (.rnd (fieldX w) (fieldKk w)) := by
  rw [← fieldFamily_eq] at h
  simp [decode, h]

theorem decode_familyD {w : Word} (h : w.toNat / 0x1000 = 0xD) : decode w = some (.drw (fieldX w) (fieldY w) (fieldN w)) := by
  rw [← fieldFamily_eq] at h
  simp [decode, h]

theorem decode_familyE {w : Word} (h : w.toNat / 0x1000 = 0xE) : decode w = decodeFamilyE w := by
  rw [← fieldFamily_eq] at h
  simp [decode, h]

theorem decode_familyF {w : Word} (h : w.toNat / 0x1000 = 0xF) : decode w = decodeFamilyF w := by
  rw [← fieldFamily_eq] at h
  simp [decode, h]

/-! ### The rows of the opcode map, nibble by nibble (30_encoding.md R102) -/

/-- Two words are equal when their four nibbles are. -/
theorem word_ext_nibbles (a b : Word) : a = b ↔
    a.extractLsb' 12 4 = b.extractLsb' 12 4 ∧ a.extractLsb' 8 4 = b.extractLsb' 8 4 ∧
    a.extractLsb' 4 4 = b.extractLsb' 4 4 ∧ a.extractLsb' 0 4 = b.extractLsb' 0 4 := by
  constructor
  · rintro rfl
    exact ⟨rfl, rfl, rfl, rfl⟩
  · rintro ⟨h3, h2, h1, h0⟩
    have h3 := congrArg BitVec.toNat h3
    have h2 := congrArg BitVec.toNat h2
    have h1 := congrArg BitVec.toNat h1
    have h0 := congrArg BitVec.toNat h0
    simp only [BitVec.extractLsb'_toNat, Nat.shiftRight_eq_div_pow] at h3 h2 h1 h0
    have := a.isLt
    have := b.isLt
    apply BitVec.eq_of_toNat_eq
    omega

theorem nibble_and_F (n : BitVec 4) : n &&& 0xF#4 = n := by
  revert n
  decide

theorem nibble_and_0 (n : BitVec 4) : n &&& 0x0#4 = 0x0#4 := by
  revert n
  decide

/-- A row whose mask is F000 looks at the family alone. -/
theorem accepts_F000 (m : String) (f : Nat) (hf : f < 16) (w : Word) :
    (OpcodeRow.mk m (BitVec.ofNat 16 (f * 0x1000)) 0xF000).accepts w = true ↔ w.toNat / 0x1000 = f := by
  have hw := w.isLt
  rw [OpcodeRow.accepts, beq_iff_eq, word_ext_nibbles]
  simp only [BitVec.extractLsb'_and]
  rw [show (0xF000 : Word).extractLsb' 12 4 = 0xF#4 from rfl, show (0xF000 : Word).extractLsb' 8 4 = 0x0#4 from rfl,
    show (0xF000 : Word).extractLsb' 4 4 = 0x0#4 from rfl, show (0xF000 : Word).extractLsb' 0 4 = 0x0#4 from rfl,
    nibble_and_F, nibble_and_0, nibble_and_0, nibble_and_0]
  simp only [← BitVec.toNat_inj, BitVec.extractLsb'_toNat, Nat.shiftRight_eq_div_pow, BitVec.toNat_ofNat]
  omega

/-- A row whose mask is F00F looks at the family and the low nibble. -/
theorem accepts_F00F (m : String) (f n : Nat) (hf : f < 16) (hn : n < 16) (w : Word) :
    (OpcodeRow.mk m (BitVec.ofNat 16 (f * 0x1000 + n)) 0xF00F).accepts w = true ↔
      w.toNat / 0x1000 = f ∧ w.toNat % 16 = n := by
  have hw := w.isLt
  rw [OpcodeRow.accepts, beq_iff_eq, word_ext_nibbles]
  simp only [BitVec.extractLsb'_and]
  rw [show (0xF00F : Word).extractLsb' 12 4 = 0xF#4 from rfl, show (0xF00F : Word).extractLsb' 8 4 = 0x0#4 from rfl,
    show (0xF00F : Word).extractLsb' 4 4 = 0x0#4 from rfl, show (0xF00F : Word).extractLsb' 0 4 = 0xF#4 from rfl,
    nibble_and_F, nibble_and_0, nibble_and_0, nibble_and_F]
  simp only [← BitVec.toNat_inj, BitVec.extractLsb'_toNat, Nat.shiftRight_eq_div_pow, BitVec.toNat_ofNat]
  omega

/-- A row whose mask is F0FF looks at the family and the low byte. -/
theorem accepts_F0FF (m : String) (f b : Nat) (hf : f < 16) (hb : b < 256) (w : Word) :
    (OpcodeRow.mk m (BitVec.ofNat 16 (f * 0x1000 + b)) 0xF0FF).accepts w = true ↔
      w.toNat / 0x1000 = f ∧ w.toNat % 256 = b := by
  have hw := w.isLt
  rw [OpcodeRow.accepts, beq_iff_eq, word_ext_nibbles]
  simp only [BitVec.extractLsb'_and]
  rw [show (0xF0FF : Word).extractLsb' 12 4 = 0xF#4 from rfl, show (0xF0FF : Word).extractLsb' 8 4 = 0x0#4 from rfl,
    show (0xF0FF : Word).extractLsb' 4 4 = 0xF#4 from rfl, show (0xF0FF : Word).extractLsb' 0 4 = 0xF#4 from rfl,
    nibble_and_F, nibble_and_0, nibble_and_F, nibble_and_F]
  simp only [← BitVec.toNat_inj, BitVec.extractLsb'_toNat, Nat.shiftRight_eq_div_pow, BitVec.toNat_ofNat]
  omega

/-- A row whose mask is FFFF looks at the whole word. -/
theorem accepts_FFFF (m : String) (v w : Word) : (OpcodeRow.mk m v 0xFFFF).accepts w = true ↔ w = v := by
  have h : (0xFFFF : Word) = BitVec.allOnes 16 := rfl
  rw [OpcodeRow.accepts, h, BitVec.and_allOnes, beq_iff_eq]

/-! ### Bytes -/

theorem decodeBytes_two (hi lo : Byte) (rest : List Byte) :
    decodeBytes (hi :: lo :: rest) = match decode (wordOfBytes hi lo) with
      | some i => .ok (i, rest)
      | none => .error (.unimplementedOpcode (wordOfBytes hi lo)) := rfl

end Sys2Proof
end

