-- ==== Sys2Proof/Laws/Memory.lean ====
section
/-! SUPPORT. Main memory: what a read returns after a write (20_memory.md R69), and that every operation keeps the
canonical form. -/

namespace Sys2Proof.Machine

/-! ### Reads -/

theorem Memory.read_cons (k : Nat) (b : Byte) (m : Memory) (a : Nat) :
    Memory.read ((k, b) :: m) a = if k = a then b else Memory.read m a := rfl

/-- An address with no entry reads as its reset content. -/
theorem Memory.read_unlisted {m : Memory} {a : Nat} (h : ∀ c ∈ m, c.1 ≠ a) : m.read a = resetByte a := by
  induction m with
  | nil => rfl
  | cons c rest ih =>
    obtain ⟨k, b⟩ := c
    rw [Memory.read_cons, if_neg (h (k, b) (by simp)), ih (fun c hc => h c (by simp [hc]))]

theorem Memory.mem_erase {m : Memory} {a : Nat} {c : Host.Cell} : c ∈ m.erase a ↔ c ∈ m ∧ c.1 ≠ a := by
  simp [Memory.erase]

theorem Memory.read_erase (m : Memory) (a b : Nat) : (m.erase a).read b = if b = a then resetByte a else m.read b := by
  split
  · next h =>
    subst h
    exact Memory.read_unlisted (fun c hc => (Memory.mem_erase.mp hc).2)
  · next h =>
    induction m with
    | nil => rfl
    | cons c rest ih =>
      obtain ⟨k, v⟩ := c
      by_cases hk : k = a
      · subst hk
        have : Memory.erase ((k, v) :: rest) k = Memory.erase rest k := by simp [Memory.erase]
        rw [this, ih, Memory.read_cons, if_neg (fun e => h e.symm)]
      · have : Memory.erase ((k, v) :: rest) a = (k, v) :: Memory.erase rest a := by simp [Memory.erase, hk]
        rw [this, Memory.read_cons, Memory.read_cons, ih]

theorem Memory.read_insert {m : Memory} {a : Nat} (h : ∀ c ∈ m, c.1 ≠ a) (v : Byte) (b : Nat) :
    (m.insert a v).read b = if b = a then v else m.read b := by
  induction m with
  | nil => simp [Memory.insert, Memory.read, eq_comm]
  | cons c rest ih =>
    obtain ⟨k, w⟩ := c
    have hk : k ≠ a := h (k, w) (by simp)
    unfold Memory.insert
    split
    · rw [Memory.read_cons, Memory.read_cons, ih (fun c hc => h c (by simp [hc]))]
      by_cases hb : b = a
      · simp [hb, hk]
      · simp [hb]
    · rw [Memory.read_cons]
      simp only [eq_comm]

/-- A read returns the last byte written there, and a write changes that byte only; in every memory. -/
theorem Memory.read_write (m : Memory) (a : Nat) (v : Byte) (b : Nat) :
    (m.write a v).read b = if b = a then v else m.read b := by
  unfold Memory.write
  split
  · next h => rw [Memory.read_erase, h]
  · rw [Memory.read_insert (fun c hc => (Memory.mem_erase.mp hc).2), Memory.read_erase]
    by_cases hb : b = a <;> simp [hb]

@[simp] theorem Memory.read_write_same (m : Memory) (a : Nat) (v : Byte) : (m.write a v).read a = v := by
  rw [Memory.read_write, if_pos rfl]

theorem Memory.read_write_other (m : Memory) {a b : Nat} (h : b ≠ a) (v : Byte) : (m.write a v).read b = m.read b := by
  rw [Memory.read_write, if_neg h]

/-- Bytes written at ascending addresses are read back, and every other byte is as before. -/
theorem Memory.read_writeBytes (bytes : List Byte) (m : Memory) (a b : Nat) :
    (m.writeBytes a bytes).read b = if a ≤ b then bytes.getD (b - a) (m.read b) else m.read b := by
  induction bytes generalizing m a with
  | nil => simp [Memory.writeBytes]
  | cons v rest ih =>
    rw [Memory.writeBytes, ih, Memory.read_write]
    by_cases h1 : a + 1 ≤ b
    · have e : b - a = (b - (a + 1)) + 1 := by omega
      rw [if_pos h1, if_pos (show a ≤ b by omega), if_neg (show b ≠ a by omega), e]
      rfl
    · by_cases h2 : b = a
      · subst h2
        simp
      · rw [if_neg h1, if_neg h2, if_neg (show ¬ a ≤ b by omega)]

/-! ### The canonical form -/

theorem Memory.wf_nil : Memory.wf [] := by simp [Memory.wf]

theorem Memory.wf_erase {m : Memory} (h : m.wf) (a : Nat) : (m.erase a).wf :=
  ⟨h.1.filter _, fun c hc => h.2 c (Memory.mem_erase.mp hc).1⟩

theorem Memory.mem_insert {m : Memory} {a : Nat} {v : Byte} {c : Host.Cell} :
    c ∈ m.insert a v ↔ c = (a, v) ∨ c ∈ m := by
  induction m with
  | nil => simp [Memory.insert]
  | cons d rest ih =>
    obtain ⟨k, w⟩ := d
    unfold Memory.insert
    split
    · simp only [List.mem_cons, ih]
      tauto
    · simp only [List.mem_cons]

theorem Memory.wf_insert {m : Memory} (h : m.wf) {a : Nat} {v : Byte} (fresh : ∀ c ∈ m, c.1 ≠ a)
    (ha : a < Config.memSize) (hv : v ≠ resetByte a) : (m.insert a v).wf := by
  refine ⟨?_, fun c hc => ?_⟩
  · have hs := h.1
    clear h
    induction m with
    | nil => simp [Memory.insert]
    | cons d rest ih =>
      obtain ⟨k, w⟩ := d
      rw [List.pairwise_cons] at hs
      have hk : k ≠ a := fresh (k, w) (by simp)
      unfold Memory.insert
      split
      · next hlt =>
        refine List.pairwise_cons.mpr ⟨fun c hc => ?_, ih (fun c hc => fresh c (by simp [hc])) hs.2⟩
        rcases Memory.mem_insert.mp hc with rfl | hc
        · exact hlt
        · exact hs.1 c hc
      · refine List.pairwise_cons.mpr ⟨fun c hc => ?_, List.pairwise_cons.mpr hs⟩
        rcases List.mem_cons.mp hc with rfl | hc
        · show a < k
          omega
        · have : k < c.1 := hs.1 c hc
          show a < c.1
          omega
  · rcases Memory.mem_insert.mp hc with rfl | hc
    · exact ⟨ha, hv⟩
    · exact h.2 c hc

/-- A write inside memory keeps the canonical form. -/
theorem Memory.wf_write {m : Memory} (h : m.wf) {a : Nat} (ha : a < Config.memSize) (v : Byte) : (m.write a v).wf := by
  unfold Memory.write
  split
  · exact Memory.wf_erase h a
  · next hv => exact Memory.wf_insert (Memory.wf_erase h a) (fun c hc => (Memory.mem_erase.mp hc).2) ha hv

theorem Memory.wf_writeBytes {bytes : List Byte} {m : Memory} (h : m.wf) {a : Nat}
    (ha : a + bytes.length ≤ Config.memSize) : (m.writeBytes a bytes).wf := by
  induction bytes generalizing m a with
  | nil => exact h
  | cons v rest ih =>
    rw [List.length_cons] at ha
    exact ih (Memory.wf_write h (by omega) v) (by omega)

/-- An entry of a canonical memory is what its address reads as. -/
theorem Memory.read_listed {m : Memory} (h : m.Pairwise (fun c d => c.1 < d.1)) {c : Host.Cell} (hc : c ∈ m) :
    m.read c.1 = c.2 := by
  induction m with
  | nil => simp at hc
  | cons d rest ih =>
    obtain ⟨k, w⟩ := d
    rw [List.pairwise_cons] at h
    rw [Memory.read_cons]
    rcases List.mem_cons.mp hc with rfl | hc
    · simp
    · have : k < c.1 := h.1 c hc
      rw [if_neg (by omega), ih h.2 hc]

/-! ### Bounds and words -/

theorem accessOk_iff (a n : Nat) : accessOk a n = true ↔ n = 0 ∨ a + n ≤ 4096 := by
  simp [accessOk]

theorem wordOfBytes_toNat (hi lo : Byte) : (wordOfBytes hi lo).toNat = hi.toNat * 256 + lo.toNat := by
  have h1 := hi.isLt
  have h2 := lo.isLt
  unfold wordOfBytes
  rw [BitVec.toNat_ofNat]
  omega

theorem wordOfBytes_highByte_lowByte (w : Word) : wordOfBytes (highByte w) (lowByte w) = w := by
  apply BitVec.eq_of_toNat_eq
  rw [wordOfBytes_toNat]
  simp only [highByte, lowByte, BitVec.extractLsb'_toNat, Nat.shiftRight_eq_div_pow]
  have := w.isLt
  omega

end Sys2Proof.Machine
end

