-- ==== Sys2Proof/Laws/State.lean ====
section
/-! SUPPORT. What each named update of the state leaves in each field and each view, true by computation, so that no
later proof unfolds a record update; then the views of what an update writes. -/

namespace Sys2Proof.Machine

variable (s : State)

/-! `setReg` -/

@[simp] theorem State.setReg_pc (q : Reg) (b : Byte) : (s.setReg q b).pc = s.pc := rfl
@[simp] theorem State.setReg_I (q : Reg) (b : Byte) : (s.setReg q b).I = s.I := rfl
@[simp] theorem State.setReg_SP (q : Reg) (b : Byte) : (s.setReg q b).SP = s.SP := rfl
@[simp] theorem State.setReg_Stack (q : Reg) (b : Byte) : (s.setReg q b).Stack = s.Stack := rfl
@[simp] theorem State.setReg_DT (q : Reg) (b : Byte) : (s.setReg q b).DT = s.DT := rfl
@[simp] theorem State.setReg_ST (q : Reg) (b : Byte) : (s.setReg q b).ST = s.ST := rfl
@[simp] theorem State.setReg_waiting (q : Reg) (b : Byte) : (s.setReg q b).waiting = s.waiting := rfl
@[simp] theorem State.setReg_needRedraw (q : Reg) (b : Byte) : (s.setReg q b).needRedraw = s.needRedraw := rfl
@[simp] theorem State.setReg_K (q : Reg) (b : Byte) : (s.setReg q b).K = s.K := rfl
@[simp] theorem State.setReg_FB (q : Reg) (b : Byte) : (s.setReg q b).FB = s.FB := rfl
@[simp] theorem State.setReg_mem (q : Reg) (b : Byte) : (s.setReg q b).mem = s.mem := rfl
@[simp] theorem State.setReg_rndCount (q : Reg) (b : Byte) : (s.setReg q b).rndCount = s.rndCount := rfl
@[simp] theorem State.setReg_pixel (q : Reg) (b : Byte) (row : Row) (col : Col) : (s.setReg q b).pixel row col = s.pixel row col := rfl
@[simp] theorem State.setReg_key (q : Reg) (b : Byte) (k : Key) : (s.setReg q b).key k = s.key k := rfl
@[simp] theorem State.setReg_stackAt (q : Reg) (b : Byte) (j : Fin 16) : (s.setReg q b).stackAt j = s.stackAt j := rfl

/-! `setPc` -/

@[simp] theorem State.setPc_V (a : Word) : (s.setPc a).V = s.V := rfl
@[simp] theorem State.setPc_pc (a : Word) : (s.setPc a).pc = a := rfl
@[simp] theorem State.setPc_I (a : Word) : (s.setPc a).I = s.I := rfl
@[simp] theorem State.setPc_SP (a : Word) : (s.setPc a).SP = s.SP := rfl
@[simp] theorem State.setPc_Stack (a : Word) : (s.setPc a).Stack = s.Stack := rfl
@[simp] theorem State.setPc_DT (a : Word) : (s.setPc a).DT = s.DT := rfl
@[simp] theorem State.setPc_ST (a : Word) : (s.setPc a).ST = s.ST := rfl
@[simp] theorem State.setPc_waiting (a : Word) : (s.setPc a).waiting = s.waiting := rfl
@[simp] theorem State.setPc_needRedraw (a : Word) : (s.setPc a).needRedraw = s.needRedraw := rfl
@[simp] theorem State.setPc_K (a : Word) : (s.setPc a).K = s.K := rfl
@[simp] theorem State.setPc_FB (a : Word) : (s.setPc a).FB = s.FB := rfl
@[simp] theorem State.setPc_mem (a : Word) : (s.setPc a).mem = s.mem := rfl
@[simp] theorem State.setPc_rndCount (a : Word) : (s.setPc a).rndCount = s.rndCount := rfl
@[simp] theorem State.setPc_reg (a : Word) (r : Reg) : (s.setPc a).reg r = s.reg r := rfl
@[simp] theorem State.setPc_pixel (a : Word) (row : Row) (col : Col) : (s.setPc a).pixel row col = s.pixel row col := rfl
@[simp] theorem State.setPc_key (a : Word) (k : Key) : (s.setPc a).key k = s.key k := rfl
@[simp] theorem State.setPc_stackAt (a : Word) (j : Fin 16) : (s.setPc a).stackAt j = s.stackAt j := rfl

/-! `advance` -/

@[simp] theorem State.advance_V : (s.advance).V = s.V := rfl
@[simp] theorem State.advance_pc : (s.advance).pc = s.pc + 2 := rfl
@[simp] theorem State.advance_I : (s.advance).I = s.I := rfl
@[simp] theorem State.advance_SP : (s.advance).SP = s.SP := rfl
@[simp] theorem State.advance_Stack : (s.advance).Stack = s.Stack := rfl
@[simp] theorem State.advance_DT : (s.advance).DT = s.DT := rfl
@[simp] theorem State.advance_ST : (s.advance).ST = s.ST := rfl
@[simp] theorem State.advance_waiting : (s.advance).waiting = s.waiting := rfl
@[simp] theorem State.advance_needRedraw : (s.advance).needRedraw = s.needRedraw := rfl
@[simp] theorem State.advance_K : (s.advance).K = s.K := rfl
@[simp] theorem State.advance_FB : (s.advance).FB = s.FB := rfl
@[simp] theorem State.advance_mem : (s.advance).mem = s.mem := rfl
@[simp] theorem State.advance_rndCount : (s.advance).rndCount = s.rndCount := rfl
@[simp] theorem State.advance_reg (r : Reg) : (s.advance).reg r = s.reg r := rfl
@[simp] theorem State.advance_pixel (row : Row) (col : Col) : (s.advance).pixel row col = s.pixel row col := rfl
@[simp] theorem State.advance_key (k : Key) : (s.advance).key k = s.key k := rfl
@[simp] theorem State.advance_stackAt (j : Fin 16) : (s.advance).stackAt j = s.stackAt j := rfl

/-! `setI` -/

@[simp] theorem State.setI_V (a : Word) : (s.setI a).V = s.V := rfl
@[simp] theorem State.setI_pc (a : Word) : (s.setI a).pc = s.pc := rfl
@[simp] theorem State.setI_I (a : Word) : (s.setI a).I = a := rfl
@[simp] theorem State.setI_SP (a : Word) : (s.setI a).SP = s.SP := rfl
@[simp] theorem State.setI_Stack (a : Word) : (s.setI a).Stack = s.Stack := rfl
@[simp] theorem State.setI_DT (a : Word) : (s.setI a).DT = s.DT := rfl
@[simp] theorem State.setI_ST (a : Word) : (s.setI a).ST = s.ST := rfl
@[simp] theorem State.setI_waiting (a : Word) : (s.setI a).waiting = s.waiting := rfl
@[simp] theorem State.setI_needRedraw (a : Word) : (s.setI a).needRedraw = s.needRedraw := rfl
@[simp] theorem State.setI_K (a : Word) : (s.setI a).K = s.K := rfl
@[simp] theorem State.setI_FB (a : Word) : (s.setI a).FB = s.FB := rfl
@[simp] theorem State.setI_mem (a : Word) : (s.setI a).mem = s.mem := rfl
@[simp] theorem State.setI_rndCount (a : Word) : (s.setI a).rndCount = s.rndCount := rfl
@[simp] theorem State.setI_reg (a : Word) (r : Reg) : (s.setI a).reg r = s.reg r := rfl
@[simp] theorem State.setI_pixel (a : Word) (row : Row) (col : Col) : (s.setI a).pixel row col = s.pixel row col := rfl
@[simp] theorem State.setI_key (a : Word) (k : Key) : (s.setI a).key k = s.key k := rfl
@[simp] theorem State.setI_stackAt (a : Word) (j : Fin 16) : (s.setI a).stackAt j = s.stackAt j := rfl

/-! `push` -/

@[simp] theorem State.push_V (h : s.SP.val < Config.stackDepth) (a : Word) : (s.push h a).V = s.V := rfl
@[simp] theorem State.push_pc (h : s.SP.val < Config.stackDepth) (a : Word) : (s.push h a).pc = s.pc := rfl
@[simp] theorem State.push_I (h : s.SP.val < Config.stackDepth) (a : Word) : (s.push h a).I = s.I := rfl
@[simp] theorem State.push_DT (h : s.SP.val < Config.stackDepth) (a : Word) : (s.push h a).DT = s.DT := rfl
@[simp] theorem State.push_ST (h : s.SP.val < Config.stackDepth) (a : Word) : (s.push h a).ST = s.ST := rfl
@[simp] theorem State.push_waiting (h : s.SP.val < Config.stackDepth) (a : Word) : (s.push h a).waiting = s.waiting := rfl
@[simp] theorem State.push_needRedraw (h : s.SP.val < Config.stackDepth) (a : Word) : (s.push h a).needRedraw = s.needRedraw := rfl
@[simp] theorem State.push_K (h : s.SP.val < Config.stackDepth) (a : Word) : (s.push h a).K = s.K := rfl
@[simp] theorem State.push_FB (h : s.SP.val < Config.stackDepth) (a : Word) : (s.push h a).FB = s.FB := rfl
@[simp] theorem State.push_mem (h : s.SP.val < Config.stackDepth) (a : Word) : (s.push h a).mem = s.mem := rfl
@[simp] theorem State.push_rndCount (h : s.SP.val < Config.stackDepth) (a : Word) : (s.push h a).rndCount = s.rndCount := rfl
@[simp] theorem State.push_reg (h : s.SP.val < Config.stackDepth) (a : Word) (r : Reg) : (s.push h a).reg r = s.reg r := rfl
@[simp] theorem State.push_pixel (h : s.SP.val < Config.stackDepth) (a : Word) (row : Row) (col : Col) : (s.push h a).pixel row col = s.pixel row col := rfl
@[simp] theorem State.push_key (h : s.SP.val < Config.stackDepth) (a : Word) (k : Key) : (s.push h a).key k = s.key k := rfl

/-! `drop` -/

@[simp] theorem State.drop_V : (s.drop).V = s.V := rfl
@[simp] theorem State.drop_pc : (s.drop).pc = s.pc := rfl
@[simp] theorem State.drop_I : (s.drop).I = s.I := rfl
@[simp] theorem State.drop_Stack : (s.drop).Stack = s.Stack := rfl
@[simp] theorem State.drop_DT : (s.drop).DT = s.DT := rfl
@[simp] theorem State.drop_ST : (s.drop).ST = s.ST := rfl
@[simp] theorem State.drop_waiting : (s.drop).waiting = s.waiting := rfl
@[simp] theorem State.drop_needRedraw : (s.drop).needRedraw = s.needRedraw := rfl
@[simp] theorem State.drop_K : (s.drop).K = s.K := rfl
@[simp] theorem State.drop_FB : (s.drop).FB = s.FB := rfl
@[simp] theorem State.drop_mem : (s.drop).mem = s.mem := rfl
@[simp] theorem State.drop_rndCount : (s.drop).rndCount = s.rndCount := rfl
@[simp] theorem State.drop_reg (r : Reg) : (s.drop).reg r = s.reg r := rfl
@[simp] theorem State.drop_pixel (row : Row) (col : Col) : (s.drop).pixel row col = s.pixel row col := rfl
@[simp] theorem State.drop_key (k : Key) : (s.drop).key k = s.key k := rfl
@[simp] theorem State.drop_stackAt (j : Fin 16) : (s.drop).stackAt j = s.stackAt j := rfl

/-! `setPixel` -/

@[simp] theorem State.setPixel_V (p : Row) (q : Col) (b : Bool) : (s.setPixel p q b).V = s.V := rfl
@[simp] theorem State.setPixel_pc (p : Row) (q : Col) (b : Bool) : (s.setPixel p q b).pc = s.pc := rfl
@[simp] theorem State.setPixel_I (p : Row) (q : Col) (b : Bool) : (s.setPixel p q b).I = s.I := rfl
@[simp] theorem State.setPixel_SP (p : Row) (q : Col) (b : Bool) : (s.setPixel p q b).SP = s.SP := rfl
@[simp] theorem State.setPixel_Stack (p : Row) (q : Col) (b : Bool) : (s.setPixel p q b).Stack = s.Stack := rfl
@[simp] theorem State.setPixel_DT (p : Row) (q : Col) (b : Bool) : (s.setPixel p q b).DT = s.DT := rfl
@[simp] theorem State.setPixel_ST (p : Row) (q : Col) (b : Bool) : (s.setPixel p q b).ST = s.ST := rfl
@[simp] theorem State.setPixel_waiting (p : Row) (q : Col) (b : Bool) : (s.setPixel p q b).waiting = s.waiting := rfl
@[simp] theorem State.setPixel_needRedraw (p : Row) (q : Col) (b : Bool) : (s.setPixel p q b).needRedraw = s.needRedraw := rfl
@[simp] theorem State.setPixel_K (p : Row) (q : Col) (b : Bool) : (s.setPixel p q b).K = s.K := rfl
@[simp] theorem State.setPixel_mem (p : Row) (q : Col) (b : Bool) : (s.setPixel p q b).mem = s.mem := rfl
@[simp] theorem State.setPixel_rndCount (p : Row) (q : Col) (b : Bool) : (s.setPixel p q b).rndCount = s.rndCount := rfl
@[simp] theorem State.setPixel_reg (p : Row) (q : Col) (b : Bool) (r : Reg) : (s.setPixel p q b).reg r = s.reg r := rfl
@[simp] theorem State.setPixel_key (p : Row) (q : Col) (b : Bool) (k : Key) : (s.setPixel p q b).key k = s.key k := rfl
@[simp] theorem State.setPixel_stackAt (p : Row) (q : Col) (b : Bool) (j : Fin 16) : (s.setPixel p q b).stackAt j = s.stackAt j := rfl

/-! `clearFB` -/

@[simp] theorem State.clearFB_V : (s.clearFB).V = s.V := rfl
@[simp] theorem State.clearFB_pc : (s.clearFB).pc = s.pc := rfl
@[simp] theorem State.clearFB_I : (s.clearFB).I = s.I := rfl
@[simp] theorem State.clearFB_SP : (s.clearFB).SP = s.SP := rfl
@[simp] theorem State.clearFB_Stack : (s.clearFB).Stack = s.Stack := rfl
@[simp] theorem State.clearFB_DT : (s.clearFB).DT = s.DT := rfl
@[simp] theorem State.clearFB_ST : (s.clearFB).ST = s.ST := rfl
@[simp] theorem State.clearFB_waiting : (s.clearFB).waiting = s.waiting := rfl
@[simp] theorem State.clearFB_needRedraw : (s.clearFB).needRedraw = s.needRedraw := rfl
@[simp] theorem State.clearFB_K : (s.clearFB).K = s.K := rfl
@[simp] theorem State.clearFB_mem : (s.clearFB).mem = s.mem := rfl
@[simp] theorem State.clearFB_rndCount : (s.clearFB).rndCount = s.rndCount := rfl
@[simp] theorem State.clearFB_reg (r : Reg) : (s.clearFB).reg r = s.reg r := rfl
@[simp] theorem State.clearFB_key (k : Key) : (s.clearFB).key k = s.key k := rfl
@[simp] theorem State.clearFB_stackAt (j : Fin 16) : (s.clearFB).stackAt j = s.stackAt j := rfl

/-! `store` -/

@[simp] theorem State.store_V (a : Nat) (b : Byte) : (s.store a b).V = s.V := rfl
@[simp] theorem State.store_pc (a : Nat) (b : Byte) : (s.store a b).pc = s.pc := rfl
@[simp] theorem State.store_I (a : Nat) (b : Byte) : (s.store a b).I = s.I := rfl
@[simp] theorem State.store_SP (a : Nat) (b : Byte) : (s.store a b).SP = s.SP := rfl
@[simp] theorem State.store_Stack (a : Nat) (b : Byte) : (s.store a b).Stack = s.Stack := rfl
@[simp] theorem State.store_DT (a : Nat) (b : Byte) : (s.store a b).DT = s.DT := rfl
@[simp] theorem State.store_ST (a : Nat) (b : Byte) : (s.store a b).ST = s.ST := rfl
@[simp] theorem State.store_waiting (a : Nat) (b : Byte) : (s.store a b).waiting = s.waiting := rfl
@[simp] theorem State.store_needRedraw (a : Nat) (b : Byte) : (s.store a b).needRedraw = s.needRedraw := rfl
@[simp] theorem State.store_K (a : Nat) (b : Byte) : (s.store a b).K = s.K := rfl
@[simp] theorem State.store_FB (a : Nat) (b : Byte) : (s.store a b).FB = s.FB := rfl
@[simp] theorem State.store_mem (a : Nat) (b : Byte) : (s.store a b).mem = s.mem.write a b := rfl
@[simp] theorem State.store_rndCount (a : Nat) (b : Byte) : (s.store a b).rndCount = s.rndCount := rfl
@[simp] theorem State.store_reg (a : Nat) (b : Byte) (r : Reg) : (s.store a b).reg r = s.reg r := rfl
@[simp] theorem State.store_pixel (a : Nat) (b : Byte) (row : Row) (col : Col) : (s.store a b).pixel row col = s.pixel row col := rfl
@[simp] theorem State.store_key (a : Nat) (b : Byte) (k : Key) : (s.store a b).key k = s.key k := rfl
@[simp] theorem State.store_stackAt (a : Nat) (b : Byte) (j : Fin 16) : (s.store a b).stackAt j = s.stackAt j := rfl

/-! `setVF` -/

@[simp] theorem State.setVF_pc (c : Bool) : (s.setVF c).pc = s.pc := rfl
@[simp] theorem State.setVF_I (c : Bool) : (s.setVF c).I = s.I := rfl
@[simp] theorem State.setVF_SP (c : Bool) : (s.setVF c).SP = s.SP := rfl
@[simp] theorem State.setVF_Stack (c : Bool) : (s.setVF c).Stack = s.Stack := rfl
@[simp] theorem State.setVF_DT (c : Bool) : (s.setVF c).DT = s.DT := rfl
@[simp] theorem State.setVF_ST (c : Bool) : (s.setVF c).ST = s.ST := rfl
@[simp] theorem State.setVF_waiting (c : Bool) : (s.setVF c).waiting = s.waiting := rfl
@[simp] theorem State.setVF_needRedraw (c : Bool) : (s.setVF c).needRedraw = s.needRedraw := rfl
@[simp] theorem State.setVF_K (c : Bool) : (s.setVF c).K = s.K := rfl
@[simp] theorem State.setVF_FB (c : Bool) : (s.setVF c).FB = s.FB := rfl
@[simp] theorem State.setVF_mem (c : Bool) : (s.setVF c).mem = s.mem := rfl
@[simp] theorem State.setVF_rndCount (c : Bool) : (s.setVF c).rndCount = s.rndCount := rfl
@[simp] theorem State.setVF_pixel (c : Bool) (row : Row) (col : Col) : (s.setVF c).pixel row col = s.pixel row col := rfl
@[simp] theorem State.setVF_key (c : Bool) (k : Key) : (s.setVF c).key k = s.key k := rfl
@[simp] theorem State.setVF_stackAt (c : Bool) (j : Fin 16) : (s.setVF c).stackAt j = s.stackAt j := rfl

/-! `orVF` -/

@[simp] theorem State.orVF_pc (c : Bool) : (s.orVF c).pc = s.pc := rfl
@[simp] theorem State.orVF_I (c : Bool) : (s.orVF c).I = s.I := rfl
@[simp] theorem State.orVF_SP (c : Bool) : (s.orVF c).SP = s.SP := rfl
@[simp] theorem State.orVF_Stack (c : Bool) : (s.orVF c).Stack = s.Stack := rfl
@[simp] theorem State.orVF_DT (c : Bool) : (s.orVF c).DT = s.DT := rfl
@[simp] theorem State.orVF_ST (c : Bool) : (s.orVF c).ST = s.ST := rfl
@[simp] theorem State.orVF_waiting (c : Bool) : (s.orVF c).waiting = s.waiting := rfl
@[simp] theorem State.orVF_needRedraw (c : Bool) : (s.orVF c).needRedraw = s.needRedraw := rfl
@[simp] theorem State.orVF_K (c : Bool) : (s.orVF c).K = s.K := rfl
@[simp] theorem State.orVF_FB (c : Bool) : (s.orVF c).FB = s.FB := rfl
@[simp] theorem State.orVF_mem (c : Bool) : (s.orVF c).mem = s.mem := rfl
@[simp] theorem State.orVF_rndCount (c : Bool) : (s.orVF c).rndCount = s.rndCount := rfl
@[simp] theorem State.orVF_pixel (c : Bool) (row : Row) (col : Col) : (s.orVF c).pixel row col = s.pixel row col := rfl
@[simp] theorem State.orVF_key (c : Bool) (k : Key) : (s.orVF c).key k = s.key k := rfl
@[simp] theorem State.orVF_stackAt (c : Bool) (j : Fin 16) : (s.orVF c).stackAt j = s.stackAt j := rfl

/-! `setWaiting` -/

@[simp] theorem State.setWaiting_V (b : Bool) : (s.setWaiting b).V = s.V := rfl
@[simp] theorem State.setWaiting_pc (b : Bool) : (s.setWaiting b).pc = s.pc := rfl
@[simp] theorem State.setWaiting_I (b : Bool) : (s.setWaiting b).I = s.I := rfl
@[simp] theorem State.setWaiting_SP (b : Bool) : (s.setWaiting b).SP = s.SP := rfl
@[simp] theorem State.setWaiting_Stack (b : Bool) : (s.setWaiting b).Stack = s.Stack := rfl
@[simp] theorem State.setWaiting_DT (b : Bool) : (s.setWaiting b).DT = s.DT := rfl
@[simp] theorem State.setWaiting_ST (b : Bool) : (s.setWaiting b).ST = s.ST := rfl
@[simp] theorem State.setWaiting_waiting (b : Bool) : (s.setWaiting b).waiting = b := rfl
@[simp] theorem State.setWaiting_needRedraw (b : Bool) : (s.setWaiting b).needRedraw = s.needRedraw := rfl
@[simp] theorem State.setWaiting_K (b : Bool) : (s.setWaiting b).K = s.K := rfl
@[simp] theorem State.setWaiting_FB (b : Bool) : (s.setWaiting b).FB = s.FB := rfl
@[simp] theorem State.setWaiting_mem (b : Bool) : (s.setWaiting b).mem = s.mem := rfl
@[simp] theorem State.setWaiting_rndCount (b : Bool) : (s.setWaiting b).rndCount = s.rndCount := rfl
@[simp] theorem State.setWaiting_reg (b : Bool) (r : Reg) : (s.setWaiting b).reg r = s.reg r := rfl
@[simp] theorem State.setWaiting_pixel (b : Bool) (row : Row) (col : Col) : (s.setWaiting b).pixel row col = s.pixel row col := rfl
@[simp] theorem State.setWaiting_key (b : Bool) (k : Key) : (s.setWaiting b).key k = s.key k := rfl
@[simp] theorem State.setWaiting_stackAt (b : Bool) (j : Fin 16) : (s.setWaiting b).stackAt j = s.stackAt j := rfl

/-! `setDT` -/

@[simp] theorem State.setDT_V (b : Byte) : (s.setDT b).V = s.V := rfl
@[simp] theorem State.setDT_pc (b : Byte) : (s.setDT b).pc = s.pc := rfl
@[simp] theorem State.setDT_I (b : Byte) : (s.setDT b).I = s.I := rfl
@[simp] theorem State.setDT_SP (b : Byte) : (s.setDT b).SP = s.SP := rfl
@[simp] theorem State.setDT_Stack (b : Byte) : (s.setDT b).Stack = s.Stack := rfl
@[simp] theorem State.setDT_DT (b : Byte) : (s.setDT b).DT = b := rfl
@[simp] theorem State.setDT_ST (b : Byte) : (s.setDT b).ST = s.ST := rfl
@[simp] theorem State.setDT_waiting (b : Byte) : (s.setDT b).waiting = s.waiting := rfl
@[simp] theorem State.setDT_needRedraw (b : Byte) : (s.setDT b).needRedraw = s.needRedraw := rfl
@[simp] theorem State.setDT_K (b : Byte) : (s.setDT b).K = s.K := rfl
@[simp] theorem State.setDT_FB (b : Byte) : (s.setDT b).FB = s.FB := rfl
@[simp] theorem State.setDT_mem (b : Byte) : (s.setDT b).mem = s.mem := rfl
@[simp] theorem State.setDT_rndCount (b : Byte) : (s.setDT b).rndCount = s.rndCount := rfl
@[simp] theorem State.setDT_reg (b : Byte) (r : Reg) : (s.setDT b).reg r = s.reg r := rfl
@[simp] theorem State.setDT_pixel (b : Byte) (row : Row) (col : Col) : (s.setDT b).pixel row col = s.pixel row col := rfl
@[simp] theorem State.setDT_key (b : Byte) (k : Key) : (s.setDT b).key k = s.key k := rfl
@[simp] theorem State.setDT_stackAt (b : Byte) (j : Fin 16) : (s.setDT b).stackAt j = s.stackAt j := rfl

/-! `setST` -/

@[simp] theorem State.setST_V (b : Byte) : (s.setST b).V = s.V := rfl
@[simp] theorem State.setST_pc (b : Byte) : (s.setST b).pc = s.pc := rfl
@[simp] theorem State.setST_I (b : Byte) : (s.setST b).I = s.I := rfl
@[simp] theorem State.setST_SP (b : Byte) : (s.setST b).SP = s.SP := rfl
@[simp] theorem State.setST_Stack (b : Byte) : (s.setST b).Stack = s.Stack := rfl
@[simp] theorem State.setST_DT (b : Byte) : (s.setST b).DT = s.DT := rfl
@[simp] theorem State.setST_ST (b : Byte) : (s.setST b).ST = b := rfl
@[simp] theorem State.setST_waiting (b : Byte) : (s.setST b).waiting = s.waiting := rfl
@[simp] theorem State.setST_needRedraw (b : Byte) : (s.setST b).needRedraw = s.needRedraw := rfl
@[simp] theorem State.setST_K (b : Byte) : (s.setST b).K = s.K := rfl
@[simp] theorem State.setST_FB (b : Byte) : (s.setST b).FB = s.FB := rfl
@[simp] theorem State.setST_mem (b : Byte) : (s.setST b).mem = s.mem := rfl
@[simp] theorem State.setST_rndCount (b : Byte) : (s.setST b).rndCount = s.rndCount := rfl
@[simp] theorem State.setST_reg (b : Byte) (r : Reg) : (s.setST b).reg r = s.reg r := rfl
@[simp] theorem State.setST_pixel (b : Byte) (row : Row) (col : Col) : (s.setST b).pixel row col = s.pixel row col := rfl
@[simp] theorem State.setST_key (b : Byte) (k : Key) : (s.setST b).key k = s.key k := rfl
@[simp] theorem State.setST_stackAt (b : Byte) (j : Fin 16) : (s.setST b).stackAt j = s.stackAt j := rfl

/-! `markRedraw` -/

@[simp] theorem State.markRedraw_V : (s.markRedraw).V = s.V := rfl
@[simp] theorem State.markRedraw_pc : (s.markRedraw).pc = s.pc := rfl
@[simp] theorem State.markRedraw_I : (s.markRedraw).I = s.I := rfl
@[simp] theorem State.markRedraw_SP : (s.markRedraw).SP = s.SP := rfl
@[simp] theorem State.markRedraw_Stack : (s.markRedraw).Stack = s.Stack := rfl
@[simp] theorem State.markRedraw_DT : (s.markRedraw).DT = s.DT := rfl
@[simp] theorem State.markRedraw_ST : (s.markRedraw).ST = s.ST := rfl
@[simp] theorem State.markRedraw_waiting : (s.markRedraw).waiting = s.waiting := rfl
@[simp] theorem State.markRedraw_needRedraw : (s.markRedraw).needRedraw = true := rfl
@[simp] theorem State.markRedraw_K : (s.markRedraw).K = s.K := rfl
@[simp] theorem State.markRedraw_FB : (s.markRedraw).FB = s.FB := rfl
@[simp] theorem State.markRedraw_mem : (s.markRedraw).mem = s.mem := rfl
@[simp] theorem State.markRedraw_rndCount : (s.markRedraw).rndCount = s.rndCount := rfl
@[simp] theorem State.markRedraw_reg (r : Reg) : (s.markRedraw).reg r = s.reg r := rfl
@[simp] theorem State.markRedraw_pixel (row : Row) (col : Col) : (s.markRedraw).pixel row col = s.pixel row col := rfl
@[simp] theorem State.markRedraw_key (k : Key) : (s.markRedraw).key k = s.key k := rfl
@[simp] theorem State.markRedraw_stackAt (j : Fin 16) : (s.markRedraw).stackAt j = s.stackAt j := rfl

/-! What an update writes, seen through the views. -/

theorem State.setReg_reg (q r : Reg) (b : Byte) : (s.setReg q b).reg r = if r = q then b else s.reg r := by
  unfold State.reg State.setReg
  rw [Vector.getElem_set]
  simp only [Fin.ext_iff, eq_comm]

@[simp] theorem State.setReg_reg_same (q : Reg) (b : Byte) : (s.setReg q b).reg q = b := by
  rw [State.setReg_reg, if_pos rfl]

theorem State.setReg_reg_other {q r : Reg} (h : r ≠ q) (b : Byte) : (s.setReg q b).reg r = s.reg r := by
  rw [State.setReg_reg, if_neg h]

theorem State.setVF_reg (c : Bool) (r : Reg) : (s.setVF c).reg r = if r = vf then flagByte c else s.reg r :=
  s.setReg_reg vf r _

@[simp] theorem State.setVF_vf (c : Bool) : (s.setVF c).reg vf = flagByte c := s.setReg_reg_same vf _

theorem State.setVF_other {r : Reg} (h : r ≠ vf) (c : Bool) : (s.setVF c).reg r = s.reg r := s.setReg_reg_other h _

@[simp] theorem State.orVF_vf (c : Bool) : (s.orVF c).reg vf = s.reg vf ||| flagByte c := s.setReg_reg_same vf _

theorem State.orVF_other {r : Reg} (h : r ≠ vf) (c : Bool) : (s.orVF c).reg r = s.reg r := s.setReg_reg_other h _

theorem State.setPixel_pixel (p row : Row) (q col : Col) (b : Bool) :
    (s.setPixel p q b).pixel row col = if row = p ∧ col = q then b else s.pixel row col := by
  unfold State.pixel State.setPixel
  by_cases hr : row = p
  · subst hr
    simp only [Vector.getElem_set_self, true_and, Vector.getElem_set, Fin.ext_iff, eq_comm]
  · rw [Vector.getElem_set_ne _ _ (fun h => hr (Fin.ext h.symm)), if_neg (fun h => hr h.1)]

@[simp] theorem State.clearFB_pixel (row : Row) (col : Col) : s.clearFB.pixel row col = false := by
  simp [State.pixel, State.clearFB]

theorem State.push_stackAt (h : s.SP.val < Config.stackDepth) (a : Word) (j : Fin 16) :
    (s.push h a).stackAt j = if j.val = s.SP.val then a else s.stackAt j := by
  unfold State.stackAt State.push
  simp only [Vector.getElem_set, eq_comm]

@[simp] theorem State.push_SP (h : s.SP.val < Config.stackDepth) (a : Word) :
    (s.push h a).SP.val = s.SP.val + 1 := rfl

@[simp] theorem State.drop_SP : s.drop.SP.val = s.SP.val - 1 := rfl

/-! `skipIf` moves `pc` by 4 or by 2 and nothing else (41_control_transfer.md R147). -/

theorem State.advance_advance_pc : s.advance.advance.pc = s.pc + 4 := by
  simp only [State.advance_pc, BitVec.add_assoc]
  rfl

theorem State.skipIf_pc (c : Bool) : (s.skipIf c).pc = if c then s.pc + 4 else s.pc + 2 := by
  cases c
  · rfl
  · exact s.advance_advance_pc

theorem State.skipIf_eq (c : Bool) : s.skipIf c = s.setPc (if c then s.pc + 4 else s.pc + 2) := by
  cases c
  · rfl
  · exact congrArg s.setPc s.advance_advance_pc

/-! The timer step and the random draw. -/

theorem timerStep_of_waiting {s : State} (h : s.waiting = true) : timerStep s = s := if_pos h

theorem timerStep_of_running {s : State} (h : s.waiting = false) :
    timerStep s = { s with DT := tick s.DT, ST := tick s.ST } := by simp [timerStep, h]

/-- The timer step changes the timers and nothing else. -/
theorem timerStep_eq : timerStep s = { s with DT := (timerStep s).DT, ST := (timerStep s).ST } := by
  unfold timerStep
  split <;> rfl

theorem tick_toNat (t : Byte) : (tick t).toNat = t.toNat - 1 := by
  unfold tick
  split
  · subst_vars
    rfl
  · bv_omega

@[simp] theorem timerStep_V : (timerStep s).V = s.V := by
  rw [timerStep_eq]
@[simp] theorem timerStep_pc : (timerStep s).pc = s.pc := by
  rw [timerStep_eq]
@[simp] theorem timerStep_I : (timerStep s).I = s.I := by
  rw [timerStep_eq]
@[simp] theorem timerStep_SP : (timerStep s).SP = s.SP := by
  rw [timerStep_eq]
@[simp] theorem timerStep_Stack : (timerStep s).Stack = s.Stack := by
  rw [timerStep_eq]
@[simp] theorem timerStep_waiting : (timerStep s).waiting = s.waiting := by
  rw [timerStep_eq]
@[simp] theorem timerStep_needRedraw : (timerStep s).needRedraw = s.needRedraw := by
  rw [timerStep_eq]
@[simp] theorem timerStep_K : (timerStep s).K = s.K := by
  rw [timerStep_eq]
@[simp] theorem timerStep_FB : (timerStep s).FB = s.FB := by
  rw [timerStep_eq]
@[simp] theorem timerStep_mem : (timerStep s).mem = s.mem := by
  rw [timerStep_eq]
@[simp] theorem timerStep_rndCount : (timerStep s).rndCount = s.rndCount := by
  rw [timerStep_eq]
@[simp] theorem timerStep_reg (r : Reg) : (timerStep s).reg r = s.reg r := by
  rw [timerStep_eq]
  rfl
@[simp] theorem timerStep_pixel (row : Row) (col : Col) : (timerStep s).pixel row col = s.pixel row col := by
  rw [timerStep_eq]
  rfl
@[simp] theorem timerStep_key (k : Key) : (timerStep s).key k = s.key k := by
  rw [timerStep_eq]
  rfl
@[simp] theorem timerStep_stackAt (j : Fin 16) : (timerStep s).stackAt j = s.stackAt j := by
  rw [timerStep_eq]
  rfl

theorem timerStep_DT_toNat (h : s.waiting = false) : (timerStep s).DT.toNat = s.DT.toNat - 1 := by
  rw [timerStep_of_running h]
  exact tick_toNat _

theorem timerStep_ST_toNat (h : s.waiting = false) : (timerStep s).ST.toNat = s.ST.toNat - 1 := by
  rw [timerStep_of_running h]
  exact tick_toNat _

end Sys2Proof.Machine
end

