-- ==== Sys2Proof/Laws/Ops.lean ====
section
/-! SUPPORT. For each shared operation of Machine/Ops.lean and Machine/Operands.lean one lemma that says once what it
can do. -/

namespace Sys2Proof.Machine

/-! ### Guarded access -/

theorem withAccess_next {a n : Nat} {s t : State} : withAccess a n s = .next t ↔ accessOk a n = true ∧ s = t := by
  unfold withAccess raise
  split <;> simp_all

theorem withAccess_fault {a n : Nat} {s : State} {f : Fault} :
    withAccess a n s = .fault f ↔ accessOk a n = false ∧ .memoryOutOfBounds = f := by
  unfold withAccess raise
  split <;> simp_all

theorem withAccess_refused {a n : Nat} {s : State} {r : Refusal} : withAccess a n s ≠ .refused r := by
  unfold withAccess raise
  split <;> simp

/-! ### Fetch -/

theorem fetch_ok {s : State} {w : Word} :
    s.fetch = .ok w ↔ s.pc.toNat ≤ 0x0FFE ∧ w = wordOfBytes (s.mem.read s.pc.toNat) (s.mem.read (s.pc.toNat + 1)) := by
  unfold State.fetch Memory.readWord
  split
  · next h =>
    rw [accessOk_iff] at h
    simp only [Except.ok.injEq, eq_comm]
    constructor
    · exact fun e => ⟨by omega, e⟩
    · exact fun e => e.2
  · next h =>
    rw [accessOk_iff] at h
    simp only [reduceCtorEq, false_iff, not_and]
    omega

theorem fetch_error {s : State} {f : Fault} :
    s.fetch = .error f ↔ s.pc.toNat > 0x0FFE ∧ f = .memoryOutOfBounds := by
  unfold State.fetch
  split
  · next h =>
    rw [accessOk_iff] at h
    simp only [reduceCtorEq, false_iff, not_and]
    omega
  · next h =>
    rw [accessOk_iff] at h
    simp only [Except.error.injEq, eq_comm]
    constructor
    · exact fun e => ⟨by omega, e⟩
    · exact fun e => e.2

/-- The fetch depends on `pc` and on what memory reads as, and on nothing else. -/
theorem fetch_congr {s t : State} (hpc : t.pc = s.pc) (hmem : ∀ a, t.mem.read a = s.mem.read a) : t.fetch = s.fetch := by
  unfold State.fetch Memory.readWord
  rw [hpc, hmem, hmem]

/-! ### Registers 0 to x -/

theorem mem_regsUpTo (x r : Reg) : r ∈ regsUpTo x ↔ r ≤ x := by
  revert x r
  decide

/-- The store loop writes memory and nothing else. -/
theorem storeFold_eq (L : List Reg) (s : State) :
    L.foldl (fun t r => t.store (t.I.toNat + r.val) (t.reg r)) s =
      { s with mem := L.foldl (fun m r => m.write (s.I.toNat + r.val) (s.reg r)) s.mem } := by
  induction L generalizing s with
  | nil => rfl
  | cons r L ih =>
    rw [List.foldl_cons, ih]
    rfl

theorem read_writeFold_listed {L : List Reg} {f : Reg → Byte} {base : Nat} {r : Reg} (hr : r ∈ L) (m : Memory) :
    (L.foldl (fun m r => m.write (base + r.val) (f r)) m).read (base + r.val) = f r := by
  induction L using List.reverseRecOn with
  | nil => simp at hr
  | append_singleton L q ih =>
    rw [List.foldl_append, List.foldl_cons, List.foldl_nil, Memory.read_write]
    split
    · next h =>
      have : r = q := Fin.ext (by omega)
      rw [this]
    · next h =>
      refine ih ?_
      rcases List.mem_append.mp hr with h' | h'
      · exact h'
      · rw [List.mem_singleton] at h'
        exact absurd (by rw [h']) h

theorem read_writeFold_other {L : List Reg} {f : Reg → Byte} {base a : Nat} (ha : ∀ r ∈ L, a ≠ base + r.val)
    (m : Memory) : (L.foldl (fun m r => m.write (base + r.val) (f r)) m).read a = m.read a := by
  induction L generalizing m with
  | nil => rfl
  | cons r L ih =>
    rw [List.foldl_cons, ih (fun q hq => ha q (by simp [hq])), Memory.read_write_other _ (ha r (by simp))]

theorem wf_writeFold {L : List Reg} {f : Reg → Byte} {base : Nat} (hb : ∀ r ∈ L, base + r.val < Config.memSize)
    {m : Memory} (hm : m.wf) : (L.foldl (fun m r => m.write (base + r.val) (f r)) m).wf := by
  induction L generalizing m with
  | nil => exact hm
  | cons r L ih =>
    exact ih (fun q hq => hb q (by simp [hq])) (Memory.wf_write hm (hb r (by simp)) _)

/-- The block store changes memory and nothing else. -/
theorem storeRegs_eq (s : State) (x : Reg) : s.storeRegs x = { s with mem := (s.storeRegs x).mem } := by
  unfold State.storeRegs
  rw [storeFold_eq]

theorem storeRegs_read_stored (s : State) {x r : Reg} (h : r ≤ x) :
    (s.storeRegs x).mem.read (s.I.toNat + r.val) = s.reg r := by
  unfold State.storeRegs
  rw [storeFold_eq]
  exact read_writeFold_listed ((mem_regsUpTo x r).mpr h) _

theorem storeRegs_read_other (s : State) {x : Reg} {a : Nat} (h : a < s.I.toNat ∨ s.I.toNat + (x.val + 1) ≤ a) :
    (s.storeRegs x).mem.read a = s.mem.read a := by
  unfold State.storeRegs
  rw [storeFold_eq]
  refine read_writeFold_other (fun r hr => ?_) _
  have : r.val ≤ x.val := (mem_regsUpTo x r).mp hr
  omega

theorem storeRegs_wf {s : State} (hs : s.mem.wf) {x : Reg} (h : s.I.toNat + (x.val + 1) ≤ Config.memSize) :
    (s.storeRegs x).mem.wf := by
  unfold State.storeRegs
  rw [storeFold_eq]
  refine wf_writeFold (fun r hr => ?_) hs
  have : r.val ≤ x.val := (mem_regsUpTo x r).mp hr
  omega

theorem loadFold_eq (L : List Reg) (s : State) :
    L.foldl (fun t r => t.setReg r (t.mem.read (t.I.toNat + r.val))) s =
      { s with V := (L.foldl (fun t r => t.setReg r (t.mem.read (t.I.toNat + r.val))) s).V } := by
  induction L generalizing s with
  | nil => rfl
  | cons r L ih =>
    rw [List.foldl_cons, ih]
    rfl

theorem loadFold_reg_other {L : List Reg} {r : Reg} (hr : r ∉ L) (s : State) :
    (L.foldl (fun t r => t.setReg r (t.mem.read (t.I.toNat + r.val))) s).reg r = s.reg r := by
  induction L generalizing s with
  | nil => rfl
  | cons q L ih =>
    rw [List.mem_cons, not_or] at hr
    rw [List.foldl_cons, ih hr.2, State.setReg_reg_other _ hr.1]

theorem loadFold_reg_listed {L : List Reg} {r : Reg} (hr : r ∈ L) (s : State) :
    (L.foldl (fun t r => t.setReg r (t.mem.read (t.I.toNat + r.val))) s).reg r = s.mem.read (s.I.toNat + r.val) := by
  induction L generalizing s with
  | nil => simp at hr
  | cons q L ih =>
    rw [List.foldl_cons]
    by_cases h : r ∈ L
    · exact ih h _
    · have e : r = q := (List.mem_cons.mp hr).resolve_right h
      rw [loadFold_reg_other h, e, State.setReg_reg_same]

/-- The block load changes the registers and nothing else. -/
theorem loadRegs_eq (s : State) (x : Reg) : s.loadRegs x = { s with V := (s.loadRegs x).V } := loadFold_eq _ _

theorem loadRegs_reg (s : State) (x r : Reg) :
    (s.loadRegs x).reg r = if r ≤ x then s.mem.read (s.I.toNat + r.val) else s.reg r := by
  split
  · next h => exact loadFold_reg_listed ((mem_regsUpTo x r).mpr h) s
  · next h => exact loadFold_reg_other (fun hm => h ((mem_regsUpTo x r).mp hm)) s

/-! ### Keys -/

theorem mem_ascending (k : Key) : k ∈ ascending := by
  revert k
  decide

/-- The scan finds no key exactly when none is pressed. -/
theorem firstKey_none {s : State} : s.firstKey = none ↔ ∀ k, s.key k = false := by
  simp only [State.firstKey, List.find?_eq_none, Bool.not_eq_true]
  exact ⟨fun h k => h k (mem_ascending k), fun h k _ => h k⟩

/-- The scan finds the least pressed key. -/
theorem firstKey_some {s : State} {k : Key} :
    s.firstKey = some k ↔ s.key k = true ∧ ∀ j, j < k → s.key j = false := by
  have sorted : ascending.Pairwise (· < ·) := by decide
  unfold State.firstKey
  rw [List.find?_eq_some_iff_append]
  constructor
  · rintro ⟨hk, as, bs, e, has⟩
    refine ⟨hk, fun j hj => ?_⟩
    have hm := mem_ascending j
    rw [e, List.mem_append, List.mem_cons] at hm
    rw [e, List.pairwise_append, List.pairwise_cons] at sorted
    rcases hm with hm | rfl | hm
    · simpa using has j hm
    · exact absurd hj (lt_irrefl _)
    · exact absurd (sorted.2.1.1 j hm) (not_lt.mpr hj.le)
  · rintro ⟨hk, hlt⟩
    obtain ⟨as, bs, e⟩ := List.append_of_mem (mem_ascending k)
    refine ⟨hk, as, bs, e, fun j hj => ?_⟩
    rw [e, List.pairwise_append] at sorted
    simp [hlt j (sorted.2.2 j hj k (by simp))]

theorem keyOf_some {s : State} {x : Reg} {k : Key} : s.keyOf x = some k ↔ (s.reg x).toNat = k.val := by
  unfold State.keyOf
  split
  · simp [Fin.ext_iff]
  · have := k.isLt
    simp only [reduceCtorEq, false_iff]
    omega

theorem keyOf_none {s : State} {x : Reg} : s.keyOf x = none ↔ (s.reg x).toNat > 15 := by
  unfold State.keyOf
  split <;> simp <;> omega

theorem keySkip_next {pressed : Bool} {x : Reg} {s t : State} : keySkip pressed x s = .next t ↔
    ∃ k : Key, (s.reg x).toNat = k.val ∧ t = s.setPc (if s.key k = pressed then s.pc + 4 else s.pc + 2) := by
  unfold keySkip
  split
  · next k h =>
    rw [keyOf_some] at h
    rw [Host.Outcome.next.injEq, State.skipIf_eq]
    simp only [beq_iff_eq]
    constructor
    · rintro rfl
      exact ⟨k, h, rfl⟩
    · rintro ⟨j, hj, rfl⟩
      rw [show j = k from Fin.ext (by omega)]
  · next h =>
    rw [keyOf_none] at h
    simp only [raise, reduceCtorEq, false_iff, not_exists, not_and]
    intro k hk
    have := k.isLt
    omega

theorem keySkip_fault {pressed : Bool} {x : Reg} {s : State} {f : Fault} : keySkip pressed x s = .fault f ↔
    (s.reg x).toNat > 15 ∧ .keyIndexOutOfRange = f := by
  unfold keySkip
  split
  · next k h =>
    rw [keyOf_some] at h
    have := k.isLt
    simp only [reduceCtorEq, false_iff, not_and]
    omega
  · next h =>
    rw [keyOf_none] at h
    simp [raise, h]

/-! ### Operand values -/

theorem addrWord_toNat (a : Addr) : (addrWord a).toNat = a.toNat := by
  have := a.isLt
  rw [addrWord, BitVec.toNat_setWidth]
  omega

theorem byteWord_toNat (b : Byte) : (byteWord b).toNat = b.toNat := by
  have := b.isLt
  rw [byteWord, BitVec.toNat_setWidth]
  omega

/-- JP V0,addr does not wrap (41_control_transfer.md R148). -/
theorem indexedTarget_toNat (s : State) (a : Addr) : (s.indexedTarget a).toNat = a.toNat + (s.reg 0).toNat := by
  have := a.isLt
  have := (s.reg 0).isLt
  rw [State.indexedTarget, BitVec.toNat_add, addrWord_toNat, byteWord_toNat]
  omega

/-- LD F,Vx does not overflow (43_index_memory.md R193). -/
theorem glyphAddr_toNat (s : State) (x : Reg) : (s.glyphAddr x).toNat = (s.reg x).toNat * 5 := by
  have := (s.reg x).isLt
  rw [State.glyphAddr, BitVec.toNat_mul, byteWord_toNat]
  show (s.reg x).toNat * 5 % 65536 = _
  omega

theorem hundreds_toNat (b : Byte) : (hundreds b).toNat = b.toNat / 100 := by
  rw [hundreds, BitVec.toNat_udiv]
  rfl

theorem tens_toNat (b : Byte) : (tens b).toNat = b.toNat / 10 % 10 := by
  rw [tens, BitVec.toNat_umod, BitVec.toNat_udiv]
  rfl

theorem ones_toNat (b : Byte) : (ones b).toNat = b.toNat % 10 := by
  rw [ones, BitVec.toNat_umod]
  rfl

end Sys2Proof.Machine
end

