-- ==== Sys2Proof/Laws/Draw.lean ====
section
/-! SUPPORT. The sprite engine: what the pixel, row and sprite loops of DRW leave in each cell and in VF
(44_display.md R211 to R213, R217). -/

namespace Sys2Proof.Machine

/-! ### One pixel -/

theorem drawPixel_pixel (s : State) (p row : Row) (q col : Col) (bit : Bool) :
    (s.drawPixel p q bit).pixel row col = (s.pixel row col ^^ (bit && (decide (row = p) && decide (col = q)))) := by
  unfold State.drawPixel
  rw [State.setPixel_pixel]
  split
  · next h => simp [h.1, h.2]
  · next h =>
    have : (decide (row = p) && decide (col = q)) = false := by simpa using h
    simp [this]

theorem drawPixel_reg (s : State) (p : Row) (q : Col) (bit : Bool) (r : Reg) :
    (s.drawPixel p q bit).reg r = if r = vf then s.reg vf ||| flagByte (bit && s.pixel p q) else s.reg r := by
  unfold State.drawPixel State.orVF
  rw [State.setPixel_reg, State.setReg_reg]

/-- A pixel changes the registers and the framebuffer and nothing else. -/
theorem drawPixel_eq (s : State) (p : Row) (q : Col) (bit : Bool) : s.drawPixel p q bit =
    { s with V := (s.drawPixel p q bit).V, FB := (s.drawPixel p q bit).FB } := rfl

theorem flagByte_or (a b : Bool) : flagByte a ||| flagByte b = flagByte (a || b) := by
  cases a <;> cases b <;> rfl

/-! ### One row -/

/-- Whether a column of the list puts a sprite bit of 1 on framebuffer column col. -/
def hitsCol (vx b : Byte) (cs : List Nat) (col : Col) : Bool :=
  cs.any (fun c => spriteBit b c && decide (col = spriteCol vx c))

/-- Whether a sprite bit of 1 of the list's columns lands on a lit cell of the row. -/
def collides (s : State) (vx b : Byte) (row : Row) (cs : List Nat) : Bool :=
  cs.any (fun c => spriteBit b c && s.pixel row (spriteCol vx c))

theorem rowFold_spec (vx b : Byte) (row : Row) (cs : List Nat)
    (distinct : cs.Pairwise (fun c d => spriteCol vx c ≠ spriteCol vx d)) (s t : State)
    (ht : t = cs.foldl (fun t c => t.drawPixel row (spriteCol vx c) (spriteBit b c)) s) :
    t = { s with V := t.V, FB := t.FB } ∧
    (∀ p col, t.pixel p col = (s.pixel p col ^^ (decide (p = row) && hitsCol vx b cs col))) ∧
    (∀ r, t.reg r = if r = vf then s.reg vf ||| flagByte (collides s vx b row cs) else s.reg r) := by
  induction cs generalizing s with
  | nil =>
    subst ht
    refine ⟨rfl, fun p col => by simp [hitsCol], fun r => ?_⟩
    by_cases h : r = vf
    · simp [collides, flagByte, h]
    · simp [h]
  | cons c cs ih =>
    rw [List.pairwise_cons] at distinct
    obtain ⟨h1, h2, h3⟩ := ih distinct.2 (s.drawPixel row (spriteCol vx c) (spriteBit b c)) ht
    refine ⟨h1.trans rfl, fun p col => ?_, fun r => ?_⟩
    · rw [h2, drawPixel_pixel]
      have later : (spriteBit b c && decide (col = spriteCol vx c)) = true → hitsCol vx b cs col = false := by
        intro h
        simp only [Bool.and_eq_true, decide_eq_true_eq] at h
        simp only [hitsCol, List.any_eq_false, Bool.and_eq_true, decide_eq_true_eq, not_and]
        rintro d hd - hcol
        exact distinct.1 d hd (h.2.symm.trans hcol)
      have hd : hitsCol vx b (c :: cs) col = (spriteBit b c && decide (col = spriteCol vx c) || hitsCol vx b cs col) := rfl
      rw [hd]
      cases hx : (spriteBit b c && decide (col = spriteCol vx c))
      · rcases Bool.and_eq_false_iff.mp hx with h | h <;> simp [h]
      · rw [later hx]
        simp only [Bool.and_eq_true] at hx
        simp [hx.1, hx.2]
    · have same : collides (s.drawPixel row (spriteCol vx c) (spriteBit b c)) vx b row cs = collides s vx b row cs := by
        have : ∀ d ∈ cs, (s.drawPixel row (spriteCol vx c) (spriteBit b c)).pixel row (spriteCol vx d) =
            s.pixel row (spriteCol vx d) := by
          intro d hd
          rw [drawPixel_pixel, decide_eq_false (p := spriteCol vx d = spriteCol vx c) (fun e => distinct.1 d hd e.symm)]
          simp
        unfold collides
        rw [Bool.eq_iff_iff, List.any_eq_true, List.any_eq_true]
        constructor <;> rintro ⟨d, hd, he⟩ <;> exact ⟨d, hd, by simpa [this d hd] using he⟩
      rw [h3, same, drawPixel_reg, drawPixel_reg]
      have hd : collides s vx b row (c :: cs) =
        (spriteBit b c && s.pixel row (spriteCol vx c) || collides s vx b row cs) := rfl
      rw [hd, ← flagByte_or]
      by_cases h : r = vf
      · simp [h, BitVec.or_assoc]
      · simp [h]

/-- The eight columns of a sprite are eight columns of the framebuffer (44_display.md R217). -/
theorem spriteCols_distinct (vx : Byte) :
    ([0, 1, 2, 3, 4, 5, 6, 7] : List Nat).Pairwise (fun c d => spriteCol vx c ≠ spriteCol vx d) := by
  have key : ∀ c d : Nat, c < d → d < 8 → spriteCol vx c ≠ spriteCol vx d := by
    intro c d h1 h2 e
    have e' : (vx.toNat + c) % 64 = (vx.toNat + d) % 64 := congrArg Fin.val e
    omega
  refine List.Pairwise.imp_of_mem (R := fun c d : Nat => c < d) (fun {c d} _ hd h => key c d h ?_) (by decide)
  fin_cases hd <;> decide

/-- At most 32 rows of a sprite are as many rows of the framebuffer (44_display.md R217). -/
theorem spriteRow_inj {vy : Byte} {r q : Nat} (hr : r < 32) (hq : q < 32) (h : spriteRow vy r = spriteRow vy q) :
    r = q := by
  have e : (vy.toNat + r) % 32 = (vy.toNat + q) % 32 := congrArg Fin.val h
  omega

/-! ### The whole sprite -/

/-- Changing the registers and the framebuffer only, twice in a row, is changing them only. -/
theorem onlyRegsAndFB_trans {s t u : State} (h : t = { s with V := t.V, FB := t.FB })
    (g : u = { t with V := u.V, FB := u.FB }) : u = { s with V := u.V, FB := u.FB } := by
  generalize t.V = v at h
  generalize t.FB = f at h
  subst h
  exact g

/-- The sprite loop changes the registers and the framebuffer only, whatever the number of rows. -/
theorem drawRows_only (s : State) (vx vy : Byte) (n : Nat) :
    s.drawRows vx vy n = { s with V := (s.drawRows vx vy n).V, FB := (s.drawRows vx vy n).FB } := by
  induction n with
  | zero => rfl
  | succ n ih =>
    rw [State.drawRows]
    exact onlyRegsAndFB_trans ih rfl

/-- Whether the first n rows of the sprite at I put a bit of 1 on a cell, as a Bool. -/
def spriteHits (s : State) (vx vy : Byte) (n : Nat) (row : Row) (col : Col) : Bool :=
  (List.range n).any (fun r => decide (row = spriteRow vy r) &&
    hitsCol vx (s.mem.read (s.ea r)) [0, 1, 2, 3, 4, 5, 6, 7] col)

/-- Whether a bit of 1 of the first n rows lands on a lit cell, as a Bool. -/
def spriteCollides (s : State) (vx vy : Byte) (n : Nat) : Bool :=
  (List.range n).any (fun r => collides s vx (s.mem.read (s.ea r)) (spriteRow vy r) [0, 1, 2, 3, 4, 5, 6, 7])

/-- All that the sprite loop does: it changes the registers and the framebuffer only, inverts exactly the cells under
a bit of 1, and ORs the collision into VF (44_display.md R211, R213, R217). -/
theorem drawRows_spec (s : State) (vx vy : Byte) {n : Nat} (hn : n ≤ 32) :
    s.drawRows vx vy n = { s with V := (s.drawRows vx vy n).V, FB := (s.drawRows vx vy n).FB } ∧
    (∀ row col, (s.drawRows vx vy n).pixel row col = (s.pixel row col ^^ spriteHits s vx vy n row col)) ∧
    (∀ r, (s.drawRows vx vy n).reg r =
      if r = vf then s.reg vf ||| flagByte (spriteCollides s vx vy n) else s.reg r) := by
  induction n with
  | zero =>
    refine ⟨rfl, fun row col => ?_, fun r => ?_⟩
    · simp [State.drawRows, spriteHits]
    · by_cases h : r = vf <;> simp [State.drawRows, spriteCollides, flagByte, h]
  | succ n ih =>
    obtain ⟨h1, h2, h3⟩ := ih (by omega)
    obtain ⟨g1, g2, g3⟩ := rowFold_spec vx (s.mem.read (s.ea n)) (spriteRow vy n) [0, 1, 2, 3, 4, 5, 6, 7]
      (spriteCols_distinct vx) (s.drawRows vx vy n) (s.drawRows vx vy (n + 1)) (by rw [State.drawRows, State.drawRow])
    refine ⟨?_, fun row col => ?_, fun r => ?_⟩
    · exact onlyRegsAndFB_trans h1 g1
    · rw [g2, h2]
      have hd : spriteHits s vx vy (n + 1) row col = (spriteHits s vx vy n row col ||
          (decide (row = spriteRow vy n) && hitsCol vx (s.mem.read (s.ea n)) [0, 1, 2, 3, 4, 5, 6, 7] col)) := by
        simp [spriteHits, List.range_succ]
      rw [hd]
      by_cases hr : row = spriteRow vy n
      · have : spriteHits s vx vy n row col = false := by
          simp only [spriteHits, List.any_eq_false, List.mem_range, Bool.and_eq_true, decide_eq_true_eq, not_and]
          intro r hlt e
          exact absurd (spriteRow_inj (by omega) (by omega) (e.symm.trans hr)) (by omega)
        simp [this]
      · simp [hr]
    · have same : collides (s.drawRows vx vy n) vx (s.mem.read (s.ea n)) (spriteRow vy n) [0, 1, 2, 3, 4, 5, 6, 7] =
          collides s vx (s.mem.read (s.ea n)) (spriteRow vy n) [0, 1, 2, 3, 4, 5, 6, 7] := by
        have : ∀ col, (s.drawRows vx vy n).pixel (spriteRow vy n) col = s.pixel (spriteRow vy n) col := by
          intro col
          rw [h2]
          have : spriteHits s vx vy n (spriteRow vy n) col = false := by
            simp only [spriteHits, List.any_eq_false, List.mem_range, Bool.and_eq_true, decide_eq_true_eq, not_and]
            intro r hlt e
            exact absurd (spriteRow_inj (by omega) (by omega) e) (by omega)
          simp [this]
        simp only [collides, this]
      have hd : spriteCollides s vx vy (n + 1) = (spriteCollides s vx vy n ||
          collides s vx (s.mem.read (s.ea n)) (spriteRow vy n) [0, 1, 2, 3, 4, 5, 6, 7]) := by
        simp [spriteCollides, List.range_succ]
      rw [g3, same, h3, h3, hd, ← flagByte_or]
      by_cases h : r = vf
      · simp [h, BitVec.or_assoc]
      · simp [h]

end Sys2Proof.Machine
end

