-- ==== Sys2Proof/Laws/PerInstr.lean ====
section
/-! SUPPORT. Per-instruction families of lemmas, one lemma per constructor of Instr. -/

/-- The canonical word of an instruction is accepted by its own row of the opcode map (30_encoding.md R102). -/
def Sys2Proof.Laws.RowOfEncoding.Statement (i : Sys2Proof.Instr) : Prop :=
  ∃ r ∈ Sys2Proof.opcodeMap, r.mnemonic = i.mnemonic ∧ r.accepts (Sys2Proof.encode i) = true

namespace Sys2Proof.Laws.RowOfEncoding

open Sys2Proof

theorem cls : Statement (.cls) := by
  refine ⟨⟨"CLS", 0x00E0, 0xFFFF⟩, by decide, rfl, ?_⟩
  exact (accepts_FFFF _ _ _).mpr rfl

theorem ret : Statement (.ret) := by
  refine ⟨⟨"RET", 0x00EE, 0xFFFF⟩, by decide, rfl, ?_⟩
  exact (accepts_FFFF _ _ _).mpr rfl

theorem jp (addr : Addr) : Statement (.jp addr) := by
  refine ⟨⟨"JP_addr", 0x1000, 0xF000⟩, by decide, rfl, ?_⟩
  refine (accepts_F000 _ 0x1 (by decide) _).mpr ?_
  rw [encode, encAddr_toNat (by decide)]
  have := addr.isLt
  omega

theorem call (addr : Addr) : Statement (.call addr) := by
  refine ⟨⟨"CALL_addr", 0x2000, 0xF000⟩, by decide, rfl, ?_⟩
  refine (accepts_F000 _ 0x2 (by decide) _).mpr ?_
  rw [encode, encAddr_toNat (by decide)]
  have := addr.isLt
  omega

theorem seImm (x : Reg) (kk : Byte) : Statement (.seImm x kk) := by
  refine ⟨⟨"SE_Vx_kk", 0x3000, 0xF000⟩, by decide, rfl, ?_⟩
  refine (accepts_F000 _ 0x3 (by decide) _).mpr ?_
  rw [encode, encXkk_toNat (by decide)]
  have := x.isLt
  have := kk.isLt
  omega

theorem sneImm (x : Reg) (kk : Byte) : Statement (.sneImm x kk) := by
  refine ⟨⟨"SNE_Vx_kk", 0x4000, 0xF000⟩, by decide, rfl, ?_⟩
  refine (accepts_F000 _ 0x4 (by decide) _).mpr ?_
  rw [encode, encXkk_toNat (by decide)]
  have := x.isLt
  have := kk.isLt
  omega

theorem seReg (x y : Reg) : Statement (.seReg x y) := by
  refine ⟨⟨"SE_Vx_Vy", 0x5000, 0xF000⟩, by decide, rfl, ?_⟩
  refine (accepts_F000 _ 0x5 (by decide) _).mpr ?_
  rw [encode, encXyn_toNat (by decide)]
  have := x.isLt
  have := y.isLt
  omega

theorem ldImm (x : Reg) (kk : Byte) : Statement (.ldImm x kk) := by
  refine ⟨⟨"LD_Vx_kk", 0x6000, 0xF000⟩, by decide, rfl, ?_⟩
  refine (accepts_F000 _ 0x6 (by decide) _).mpr ?_
  rw [encode, encXkk_toNat (by decide)]
  have := x.isLt
  have := kk.isLt
  omega

theorem addImm (x : Reg) (kk : Byte) : Statement (.addImm x kk) := by
  refine ⟨⟨"ADD_Vx_kk", 0x7000, 0xF000⟩, by decide, rfl, ?_⟩
  refine (accepts_F000 _ 0x7 (by decide) _).mpr ?_
  rw [encode, encXkk_toNat (by decide)]
  have := x.isLt
  have := kk.isLt
  omega

theorem ldReg (x y : Reg) : Statement (.ldReg x y) := by
  refine ⟨⟨"LD_Vx_Vy", 0x8000, 0xF00F⟩, by decide, rfl, ?_⟩
  refine (accepts_F00F _ 0x8 0x0 (by decide) (by decide) _).mpr ?_
  rw [encode, encXyn_toNat (by decide)]
  have := x.isLt
  have := y.isLt
  omega

theorem orReg (x y : Reg) : Statement (.orReg x y) := by
  refine ⟨⟨"OR_Vx_Vy", 0x8001, 0xF00F⟩, by decide, rfl, ?_⟩
  refine (accepts_F00F _ 0x8 0x1 (by decide) (by decide) _).mpr ?_
  rw [encode, encXyn_toNat (by decide)]
  have := x.isLt
  have := y.isLt
  omega

theorem andReg (x y : Reg) : Statement (.andReg x y) := by
  refine ⟨⟨"AND_Vx_Vy", 0x8002, 0xF00F⟩, by decide, rfl, ?_⟩
  refine (accepts_F00F _ 0x8 0x2 (by decide) (by decide) _).mpr ?_
  rw [encode, encXyn_toNat (by decide)]
  have := x.isLt
  have := y.isLt
  omega

theorem xorReg (x y : Reg) : Statement (.xorReg x y) := by
  refine ⟨⟨"XOR_Vx_Vy", 0x8003, 0xF00F⟩, by decide, rfl, ?_⟩
  refine (accepts_F00F _ 0x8 0x3 (by decide) (by decide) _).mpr ?_
  rw [encode, encXyn_toNat (by decide)]
  have := x.isLt
  have := y.isLt
  omega

theorem addReg (x y : Reg) : Statement (.addReg x y) := by
  refine ⟨⟨"ADD_Vx_Vy", 0x8004, 0xF00F⟩, by decide, rfl, ?_⟩
  refine (accepts_F00F _ 0x8 0x4 (by decide) (by decide) _).mpr ?_
  rw [encode, encXyn_toNat (by decide)]
  have := x.isLt
  have := y.isLt
  omega

theorem subReg (x y : Reg) : Statement (.subReg x y) := by
  refine ⟨⟨"SUB_Vx_Vy", 0x8005, 0xF00F⟩, by decide, rfl, ?_⟩
  refine (accepts_F00F _ 0x8 0x5 (by decide) (by decide) _).mpr ?_
  rw [encode, encXyn_toNat (by decide)]
  have := x.isLt
  have := y.isLt
  omega

theorem shr (x : Reg) : Statement (.shr x) := by
  refine ⟨⟨"SHR_Vx", 0x8006, 0xF00F⟩, by decide, rfl, ?_⟩
  refine (accepts_F00F _ 0x8 0x6 (by decide) (by decide) _).mpr ?_
  rw [encode, encXyn_toNat (by decide)]
  have := x.isLt
  omega

theorem subnReg (x y : Reg) : Statement (.subnReg x y) := by
  refine ⟨⟨"SUBN_Vx_Vy", 0x8007, 0xF00F⟩, by decide, rfl, ?_⟩
  refine (accepts_F00F _ 0x8 0x7 (by decide) (by decide) _).mpr ?_
  rw [encode, encXyn_toNat (by decide)]
  have := x.isLt
  have := y.isLt
  omega

theorem shl (x : Reg) : Statement (.shl x) := by
  refine ⟨⟨"SHL_Vx", 0x800E, 0xF00F⟩, by decide, rfl, ?_⟩
  refine (accepts_F00F _ 0x8 0xE (by decide) (by decide) _).mpr ?_
  rw [encode, encXyn_toNat (by decide)]
  have := x.isLt
  omega

theorem sneReg (x y : Reg) : Statement (.sneReg x y) := by
  refine ⟨⟨"SNE_Vx_Vy", 0x9000, 0xF000⟩, by decide, rfl, ?_⟩
  refine (accepts_F000 _ 0x9 (by decide) _).mpr ?_
  rw [encode, encXyn_toNat (by decide)]
  have := x.isLt
  have := y.isLt
  omega

theorem ldI (addr : Addr) : Statement (.ldI addr) := by
  refine ⟨⟨"LD_I_addr", 0xA000, 0xF000⟩, by decide, rfl, ?_⟩
  refine (accepts_F000 _ 0xA (by decide) _).mpr ?_
  rw [encode, encAddr_toNat (by decide)]
  have := addr.isLt
  omega

theorem jpV0 (addr : Addr) : Statement (.jpV0 addr) := by
  refine ⟨⟨"JP_V0_addr", 0xB000, 0xF000⟩, by decide, rfl, ?_⟩
  refine (accepts_F000 _ 0xB (by decide) _).mpr ?_
  rw [encode, encAddr_toNat (by decide)]
  have := addr.isLt
  omega

theorem rnd (x : Reg) (kk : Byte) : Statement (.rnd x kk) := by
  refine ⟨⟨"RND_Vx_kk", 0xC000, 0xF000⟩, by decide, rfl, ?_⟩
  refine (accepts_F000 _ 0xC (by decide) _).mpr ?_
  rw [encode, encXkk_toNat (by decide)]
  have := x.isLt
  have := kk.isLt
  omega

theorem drw (x y : Reg) (n : Nat) : Statement (.drw x y n) := by
  refine ⟨⟨"DRW_Vx_Vy_n", 0xD000, 0xF000⟩, by decide, rfl, ?_⟩
  refine (accepts_F000 _ 0xD (by decide) _).mpr ?_
  rw [encode, encXyn_toNat (by decide)]
  have := x.isLt
  have := y.isLt
  omega

theorem skp (x : Reg) : Statement (.skp x) := by
  refine ⟨⟨"SKP_Vx", 0xE09E, 0xF0FF⟩, by decide, rfl, ?_⟩
  refine (accepts_F0FF _ 0xE 0x9E (by decide) (by decide) _).mpr ?_
  rw [encode, encXsel_toNat (by decide) (by decide)]
  have := x.isLt
  omega

theorem sknp (x : Reg) : Statement (.sknp x) := by
  refine ⟨⟨"SKNP_Vx", 0xE0A1, 0xF0FF⟩, by decide, rfl, ?_⟩
  refine (accepts_F0FF _ 0xE 0xA1 (by decide) (by decide) _).mpr ?_
  rw [encode, encXsel_toNat (by decide) (by decide)]
  have := x.isLt
  omega

theorem ldVxDT (x : Reg) : Statement (.ldVxDT x) := by
  refine ⟨⟨"LD_Vx_DT", 0xF007, 0xF0FF⟩, by decide, rfl, ?_⟩
  refine (accepts_F0FF _ 0xF 0x07 (by decide) (by decide) _).mpr ?_
  rw [encode, encXsel_toNat (by decide) (by decide)]
  have := x.isLt
  omega

theorem ldVxK (x : Reg) : Statement (.ldVxK x) := by
  refine ⟨⟨"LD_Vx_K", 0xF00A, 0xF0FF⟩, by decide, rfl, ?_⟩
  refine (accepts_F0FF _ 0xF 0x0A (by decide) (by decide) _).mpr ?_
  rw [encode, encXsel_toNat (by decide) (by decide)]
  have := x.isLt
  omega

theorem ldDTVx (x : Reg) : Statement (.ldDTVx x) := by
  refine ⟨⟨"LD_DT_Vx", 0xF015, 0xF0FF⟩, by decide, rfl, ?_⟩
  refine (accepts_F0FF _ 0xF 0x15 (by decide) (by decide) _).mpr ?_
  rw [encode, encXsel_toNat (by decide) (by decide)]
  have := x.isLt
  omega

theorem ldSTVx (x : Reg) : Statement (.ldSTVx x) := by
  refine ⟨⟨"LD_ST_Vx", 0xF018, 0xF0FF⟩, by decide, rfl, ?_⟩
  refine (accepts_F0FF _ 0xF 0x18 (by decide) (by decide) _).mpr ?_
  rw [encode, encXsel_toNat (by decide) (by decide)]
  have := x.isLt
  omega

theorem addI (x : Reg) : Statement (.addI x) := by
  refine ⟨⟨"ADD_I_Vx", 0xF01E, 0xF0FF⟩, by decide, rfl, ?_⟩
  refine (accepts_F0FF _ 0xF 0x1E (by decide) (by decide) _).mpr ?_
  rw [encode, encXsel_toNat (by decide) (by decide)]
  have := x.isLt
  omega

theorem ldF (x : Reg) : Statement (.ldF x) := by
  refine ⟨⟨"LD_F_Vx", 0xF029, 0xF0FF⟩, by decide, rfl, ?_⟩
  refine (accepts_F0FF _ 0xF 0x29 (by decide) (by decide) _).mpr ?_
  rw [encode, encXsel_toNat (by decide) (by decide)]
  have := x.isLt
  omega

theorem ldB (x : Reg) : Statement (.ldB x) := by
  refine ⟨⟨"LD_B_Vx", 0xF033, 0xF0FF⟩, by decide, rfl, ?_⟩
  refine (accepts_F0FF _ 0xF 0x33 (by decide) (by decide) _).mpr ?_
  rw [encode, encXsel_toNat (by decide) (by decide)]
  have := x.isLt
  omega

theorem stRegs (x : Reg) : Statement (.stRegs x) := by
  refine ⟨⟨"LD__I__Vx", 0xF055, 0xF0FF⟩, by decide, rfl, ?_⟩
  refine (accepts_F0FF _ 0xF 0x55 (by decide) (by decide) _).mpr ?_
  rw [encode, encXsel_toNat (by decide) (by decide)]
  have := x.isLt
  omega

theorem ldRegs (x : Reg) : Statement (.ldRegs x) := by
  refine ⟨⟨"LD_Vx__I", 0xF065, 0xF0FF⟩, by decide, rfl, ?_⟩
  refine (accepts_F0FF _ 0xF 0x65 (by decide) (by decide) _).mpr ?_
  rw [encode, encXsel_toNat (by decide) (by decide)]
  have := x.isLt
  omega

end Sys2Proof.Laws.RowOfEncoding
end

