-- ==== Sys2Proof/Laws/Step.lean ====
section
/-! SUPPORT. What a step can do, said once, and the inversion of each meaning that can fault. -/

namespace Sys2Proof.Machine

/-! ### The step -/

theorem finish_next {r : Result} {t : State} : finish r = .next t ↔ ∃ u, r = .next u ∧ t = timerStep u := by
  cases r <;> simp [finish, eq_comm]

theorem finish_fault {r : Result} {f : Fault} : finish r = .fault f ↔ r = .fault f := by
  cases r <;> simp [finish]

/-- A step is decided by what it fetches (40_cycle.md R120). -/
theorem step_of_fetches {s : State} {i : Instr} (h : Fetches s i) : step s = finish (exec i s) := by
  obtain ⟨w, hw, hd⟩ := h
  simp only [step, hw, decodeOrFault, hd]

theorem step_of_illegal {s : State} {w : Word} (hw : s.fetch = .ok w) (hd : decode w = none) :
    step s = .fault (.unimplementedOpcode w) := by
  simp only [step, hw, decodeOrFault, hd, raise]

theorem step_of_fetch_error {s : State} {f : Fault} (h : s.fetch = .error f) : step s = .fault f := by
  simp only [step, h, raise]

/-- Every state is in exactly one of the three situations a step starts from. -/
theorem fetch_cases (s : State) : (∃ f, s.fetch = .error f) ∨ (∃ w, s.fetch = .ok w ∧ decode w = none) ∨
    ∃ i, Fetches s i := by
  cases hf : s.fetch with
  | error f => exact .inl ⟨f, rfl⟩
  | ok w =>
    cases hd : decode w with
    | none => exact .inr (.inl ⟨w, rfl, hd⟩)
    | some i => exact .inr (.inr ⟨i, w, hf, hd⟩)

/-- A step answers a next state exactly when it fetched an instruction whose handler completed; the state is then the
handler's after the timer step. -/
theorem step_next {s t : State} :
    step s = .next t ↔ ∃ i u, Fetches s i ∧ exec i s = .next u ∧ t = timerStep u := by
  constructor
  · intro h
    rcases fetch_cases s with ⟨f, hf⟩ | ⟨w, hw, hd⟩ | ⟨i, hi⟩
    · rw [step_of_fetch_error hf] at h
      cases h
    · rw [step_of_illegal hw hd] at h
      cases h
    · rw [step_of_fetches hi, finish_next] at h
      obtain ⟨u, hu, ht⟩ := h
      exact ⟨i, u, hi, hu, ht⟩
  · rintro ⟨i, u, hi, hu, rfl⟩
    rw [step_of_fetches hi, hu]
    rfl

/-- The faults of a step in the order of 60_exceptions.md R257. -/
theorem step_fault {s : State} {f : Fault} : step s = .fault f ↔
    s.fetch = .error f ∨ (∃ w, s.fetch = .ok w ∧ decode w = none ∧ f = .unimplementedOpcode w) ∨
    ∃ i, Fetches s i ∧ exec i s = .fault f := by
  constructor
  · intro h
    rcases fetch_cases s with ⟨g, hg⟩ | ⟨w, hw, hd⟩ | ⟨i, hi⟩
    · rw [step_of_fetch_error hg] at h
      cases h
      exact .inl hg
    · rw [step_of_illegal hw hd] at h
      cases h
      exact .inr (.inl ⟨w, hw, hd, rfl⟩)
    · rw [step_of_fetches hi, finish_fault] at h
      exact .inr (.inr ⟨i, hi, h⟩)
  · rintro (h | ⟨w, hw, hd, rfl⟩ | ⟨i, hi, h⟩)
    · exact step_of_fetch_error h
    · exact step_of_illegal hw hd
    · rw [step_of_fetches hi, h]
      rfl

/-- An instruction is fetched only from an address at which both bytes are in memory. -/
theorem fetches_pc {s : State} {i : Instr} (h : Fetches s i) : s.pc.toNat ≤ 0x0FFE := by
  obtain ⟨w, hw, -⟩ := h
  exact (fetch_ok.mp hw).1

/-- What is fetched depends on `pc` and on what memory reads as, and on nothing else. -/
theorem fetches_congr {s t : State} {i : Instr} (hpc : t.pc = s.pc) (hmem : ∀ a, t.mem.read a = s.mem.read a)
    (h : Fetches s i) : Fetches t i := by
  obtain ⟨w, hw, hd⟩ := h
  exact ⟨w, (fetch_congr hpc hmem).trans hw, hd⟩

theorem fetches_unique {s : State} {i j : Instr} (hi : Fetches s i) (hj : Fetches s j) : i = j := by
  obtain ⟨w, hw, hd⟩ := hi
  obtain ⟨v, hv, he⟩ := hj
  rw [hw] at hv
  cases hv
  rw [hd] at he
  exact Option.some.inj he

/-! ### The meanings that can fault -/

theorem execRet_next {s t : State} :
    execRet s = .next t ↔ s.SP.val ≠ 0 ∧ t = s.drop.setPc (s.stackAt s.topSlot + 2) := by
  unfold execRet raise
  split <;> simp_all [eq_comm]

theorem execRet_fault {s : State} {f : Fault} : execRet s = .fault f ↔ s.SP.val = 0 ∧ .stackUnderflow = f := by
  unfold execRet raise
  split <;> simp_all

theorem execCall_next {s t : State} {addr : Addr} :
    execCall addr s = .next t ↔ ∃ h : s.SP.val < Config.stackDepth, t = (s.push h s.pc).setPc (addrWord addr) := by
  unfold execCall raise
  split
  · next h => simp [h, eq_comm]
  · next h => simp [h]

theorem execCall_fault {s : State} {addr : Addr} {f : Fault} :
    execCall addr s = .fault f ↔ s.SP.val = 16 ∧ .stackOverflow = f := by
  have := s.SP.isLt
  unfold execCall raise
  split
  · next h =>
    have h : s.SP.val < 16 := h
    simp only [reduceCtorEq, false_iff, not_and]
    omega
  · next h =>
    have h : ¬ s.SP.val < 16 := h
    simp only [Host.Outcome.fault.injEq, iff_and_self]
    omega

theorem execAddI_next {s t : State} {x : Reg} : execAddI x s = .next t ↔ s.indexSum x ≤ 0xFFFF ∧
    t = ((s.setI (BitVec.ofNat 16 (s.indexSum x))).setVF (indexHigh (s.indexSum x))).advance := by
  unfold execAddI raise
  split
  · next h =>
    simp only [reduceCtorEq, false_iff, not_and]
    omega
  · next h => simp [Nat.not_lt.mp h, eq_comm]

theorem execAddI_fault {s : State} {x : Reg} {f : Fault} :
    execAddI x s = .fault f ↔ s.indexSum x > 0xFFFF ∧ .memoryOutOfBounds = f := by
  unfold execAddI raise
  split
  · next h => simp [h]
  · next h => simp [h]

/-- LD Vx,K always completes, in one of two ways (45_keypad_timers.md R232). -/
theorem execLdVxK_cases (x : Reg) (s : State) :
    ((∀ k, s.key k = false) ∧ execLdVxK x s = .next (s.setWaiting true)) ∨
    ∃ k : Key, (s.key k = true ∧ ∀ j, j < k → s.key j = false) ∧
      execLdVxK x s = .next ((s.setReg x (BitVec.ofNat 8 k.val)).setWaiting false).advance := by
  unfold execLdVxK
  split
  · next k h => exact .inr ⟨k, firstKey_some.mp h, rfl⟩
  · next h => exact .inl ⟨firstKey_none.mp h, rfl⟩

/-! ### Runs -/

theorem run_next (M : Host.Core) {s t : M.State} (h : M.step s = .next t) (k : Nat) : M.run (k + 1) s = M.run k t := by
  simp only [Host.Core.run, h]

theorem run_step {s t : State} (h : step s = .next t) (k : Nat) :
    Host.Core.run Sys2Proof.core (k + 1) s = Host.Core.run Sys2Proof.core k t :=
  run_next Sys2Proof.core h k

/-! ### Frames -/

/-- A state that differs in the registers and `pc` only. -/
theorem onlyRegs_of {s t : State} (h : t = { s with V := t.V, pc := t.pc }) : OnlyRegs s t := by
  rw [h]
  exact ⟨rfl, ⟨rfl, fun _ => rfl⟩, ⟨rfl, rfl⟩, rfl, rfl, fun _ => rfl, fun _ _ => rfl, fun _ => rfl, rfl⟩

theorem sameRegs_setReg (s : State) (x : Reg) (b : Byte) : SameRegs [x] s (s.setReg x b) :=
  fun _ hr => State.setReg_reg_other _ (by simpa using hr) _

/-- The frame of an instruction that writes its result and then VF. -/
theorem sameRegs_setReg_setVF (s : State) (x : Reg) (b : Byte) (c : Bool) :
    SameRegs [x, vf] s ((s.setReg x b).setVF c) := by
  intro r hr
  rw [List.mem_cons, List.mem_singleton, not_or] at hr
  rw [State.setVF_other _ hr.2, State.setReg_reg_other _ hr.1]

/-- The frame of an instruction that writes VF and then its result. -/
theorem sameRegs_setVF_setReg (s : State) (x : Reg) (b : Byte) (c : Bool) :
    SameRegs [x, vf] s ((s.setVF c).setReg x b) := by
  intro r hr
  rw [List.mem_cons, List.mem_singleton, not_or] at hr
  rw [State.setReg_reg_other _ hr.1, State.setVF_other _ hr.2]

theorem onlyRegsIn_skipIf (s : State) (c : Bool) : OnlyRegsIn [] s (s.skipIf c) := by
  rw [State.skipIf_eq]
  exact ⟨onlyRegs_of rfl, fun _ _ => rfl⟩

/-! ### The sprite, as the claims say it -/

theorem spriteHits_iff {s : State} {vx vy : Byte} {n : Nat} {row : Row} {col : Col} :
    spriteHits s vx vy n row col = true ↔ SpriteCovers s vx vy n row col := by
  simp only [spriteHits, SpriteCovers, hitsCol, List.any_eq_true, List.mem_range, Bool.and_eq_true, decide_eq_true_eq]
  constructor
  · rintro ⟨r, hr, h1, c, hc, h2, h3⟩
    refine ⟨r, c, hr, ?_, by rw [h1]; rfl, by rw [h3]; rfl, h2⟩
    simp only [List.mem_cons, List.not_mem_nil, or_false] at hc
    omega
  · rintro ⟨r, c, hr, hc, h1, h2, h3⟩
    refine ⟨r, hr, Fin.ext h1, c, ?_, h3, Fin.ext h2⟩
    simp only [List.mem_cons, List.not_mem_nil, or_false]
    omega

theorem spriteCollides_iff {s : State} {vx vy : Byte} {n : Nat} :
    spriteCollides s vx vy n = true ↔ ∃ row col, SpriteCovers s vx vy n row col ∧ s.pixel row col = true := by
  simp only [spriteCollides, SpriteCovers, collides, List.any_eq_true, List.mem_range, Bool.and_eq_true]
  constructor
  · rintro ⟨r, hr, c, hc, h2, h3⟩
    refine ⟨_, _, ⟨r, c, hr, ?_, rfl, rfl, h2⟩, h3⟩
    simp only [List.mem_cons, List.not_mem_nil, or_false] at hc
    omega
  · rintro ⟨row, col, ⟨r, c, hr, hc, h1, h2, h3⟩, h4⟩
    obtain rfl : row = spriteRow vy r := Fin.ext h1
    obtain rfl : col = spriteCol vx c := Fin.ext h2
    refine ⟨r, hr, c, ?_, h3, h4⟩
    simp only [List.mem_cons, List.not_mem_nil, or_false]
    omega

end Sys2Proof.Machine
end

