-- ==== Sys2Proof/Tests/Slice0.lean ====
section
/-! SUPPORT. Tests: the well-formedness checks refuse, every row of 30_encoding.md R102 decodes, one step of each
instruction on vectors of spec/95_test_vectors.md (their numbers stand in the comments), and for every obligation with
hypotheses a state and operands that meet them. -/

namespace Sys2Proof.Tests

open Sys2Proof Sys2Proof.Machine

/-! ### Well-formedness -/

theorem test_wf_refuses_sixteen_rows : (Instr.drw 1 2 16).wf = false := by decide

theorem test_wf_accepts_fifteen_rows : (Instr.drw 1 2 15).wf = true := by decide

theorem test_rom_of_3585_bytes_is_refused : romFits (List.replicate 3585 0) = false := by
  simp only [romFits, List.length_replicate]
  decide

theorem test_rom_of_3584_bytes_fits : romFits (List.replicate 3584 0) = true := by
  simp only [romFits, List.length_replicate]
  decide

/-! ### Decoding: words written out from 30_encoding.md R102 -/

theorem test_decode_cls : decode 0x00E0 = some .cls := by decide
theorem test_decode_ret : decode 0x00EE = some .ret := by decide
theorem test_decode_jp : decode 0x1FA5 = some (.jp 0xFA5) := by decide
theorem test_decode_call : decode 0x2ABC = some (.call 0xABC) := by decide
theorem test_decode_seImm : decode 0x3A42 = some (.seImm 0xA 0x42) := by decide
theorem test_decode_sneImm : decode 0x4A42 = some (.sneImm 0xA 0x42) := by decide
theorem test_decode_seReg : decode 0x5AB7 = some (.seReg 0xA 0xB) := by decide
theorem test_decode_ldImm : decode 0x6FAB = some (.ldImm 0xF 0xAB) := by decide
theorem test_decode_addImm : decode 0x7105 = some (.addImm 0x1 0x05) := by decide
theorem test_decode_ldReg : decode 0x8120 = some (.ldReg 0x1 0x2) := by decide
theorem test_decode_orReg : decode 0x8121 = some (.orReg 0x1 0x2) := by decide
theorem test_decode_andReg : decode 0x8122 = some (.andReg 0x1 0x2) := by decide
theorem test_decode_xorReg : decode 0x8123 = some (.xorReg 0x1 0x2) := by decide
theorem test_decode_addReg : decode 0x8124 = some (.addReg 0x1 0x2) := by decide
theorem test_decode_subReg : decode 0x8125 = some (.subReg 0x1 0x2) := by decide
theorem test_decode_shr : decode 0x81A6 = some (.shr 0x1) := by decide
theorem test_decode_subnReg : decode 0x8127 = some (.subnReg 0x1 0x2) := by decide
theorem test_decode_shl : decode 0x81AE = some (.shl 0x1) := by decide
theorem test_decode_sneReg : decode 0x9ABF = some (.sneReg 0xA 0xB) := by decide
theorem test_decode_ldI : decode 0xA32E = some (.ldI 0x32E) := by decide
theorem test_decode_jpV0 : decode 0xB300 = some (.jpV0 0x300) := by decide
theorem test_decode_rnd : decode 0xC30F = some (.rnd 0x3 0x0F) := by decide
theorem test_decode_drw : decode 0xD125 = some (.drw 0x1 0x2 5) := by decide
theorem test_decode_skp : decode 0xE39E = some (.skp 0x3) := by decide
theorem test_decode_sknp : decode 0xE3A1 = some (.sknp 0x3) := by decide
theorem test_decode_ldVxDT : decode 0xF407 = some (.ldVxDT 0x4) := by decide
theorem test_decode_ldVxK : decode 0xF30A = some (.ldVxK 0x3) := by decide
theorem test_decode_ldDTVx : decode 0xF015 = some (.ldDTVx 0x0) := by decide
theorem test_decode_ldSTVx : decode 0xF118 = some (.ldSTVx 0x1) := by decide
theorem test_decode_addI : decode 0xF21E = some (.addI 0x2) := by decide
theorem test_decode_ldF : decode 0xF029 = some (.ldF 0x0) := by decide
theorem test_decode_ldB : decode 0xF033 = some (.ldB 0x0) := by decide
theorem test_decode_stRegs : decode 0xF255 = some (.stRegs 0x2) := by decide
theorem test_decode_ldRegs : decode 0xF265 = some (.ldRegs 0x2) := by decide

/-- The illegal words of 2.6 rows 1 to 7, of 2.2 rows 55 and 56 and of 2.5 row 8, and the ends of R97's ranges. -/
theorem test_decode_illegal :
    [0x0000, 0x00E1, 0x01E0, 0x0FFF, 0xE000, 0xF000, 0xF075, 0x8008, 0x800D, 0x812F, 0xE39F].all
      (fun w : Word => (decode w).isNone) = true := by decide

theorem test_bytes_high_byte_first : decodeTableWord 16 0x6107 = some (.ldImm 0x1 0x07) := by decide

theorem test_bytes_with_rest : decodeBytes [0x61, 0x07, 0xAA] = .ok (.ldImm 0x1 0x07, [0xAA]) := rfl

theorem test_bytes_reject_illegal : decodeBytes [0xF0, 0x75] = .error (.unimplementedOpcode 0xF075) := rfl

theorem test_bytes_reject_one_byte : decodeBytes [0x00] = .error (.tooShort 1) := rfl

/-! ### Small states -/

/-- The reset state with some registers set. -/
def regs (l : List (Reg × Byte)) : State := l.foldl (fun s p => s.setReg p.1 p.2) State.reset

/-- Bytes of memory. -/
def bytes (a : Nat) (l : List Byte) (s : State) : State := { s with mem := s.mem.writeBytes a l }

/-- Keys pressed. -/
def pressed (l : List Key) (s : State) : State := l.foldl (fun s k => hostAct (.setKey k true) s) s

/-- Cells lit. -/
def lit (l : List (Row × Col)) (s : State) : State := l.foldl (fun s p => s.setPixel p.1 p.2 true) s

/-- Slots of the return stack, and how many are in use. -/
def calls (sp : Fin 17) (l : List (Fin 16 × Word)) (s : State) : State :=
  { s with SP := sp, Stack := l.foldl (fun v p => v.set p.1.val p.2 p.1.isLt) s.Stack }

/-- One step with the word at `pc`, and a check of the state after it. -/
def after (w : Nat) (s : State) (p : State → Bool) : Bool :=
  match step (s.withFetchWord 16 w) with
  | .next t => p t
  | _ => false

/-- Whether one step with the word at `pc` reports this fault. -/
def faults (w : Nat) (s : State) (f : Fault) : Bool :=
  match step (s.withFetchWord 16 w) with
  | .fault g => g == f
  | _ => false

/-! ### One step of each instruction -/

/-- S2. -/
theorem test_step_cls : after 0x00E0 (lit [(0, 0), (5, 7), (31, 63)] (regs [(15, 1)])) (fun t =>
    !t.pixel 0 0 && !t.pixel 31 63 && t.reg 15 == 1 && !t.needRedraw && t.pc == 0x202) = true := by decide

/-- 2.1 row 3. -/
theorem test_step_ret : after 0x00EE (calls 16 [(15, 0x0FFE)] { State.reset with pc := 0x300 }) (fun t =>
    t.pc == 0x1000 && t.SP == 15) = true := by decide

/-- 2.1 row 2. -/
theorem test_step_ret_empty : faults 0x00EE State.reset .stackUnderflow = true := by decide

/-- 2.1 row 4. -/
theorem test_step_jp : after 0x1FFF State.reset (fun t => t.pc == 0xFFF) = true := by decide

/-- 2.1 row 6: an odd address is stored as it is. -/
theorem test_step_call : after 0x2ABC (calls 15 [] { State.reset with pc := 0x3F1 }) (fun t =>
    t.stackAt 15 == 0x3F1 && t.SP == 16 && t.pc == 0xABC) = true := by decide

/-- 2.1 row 7. -/
theorem test_step_call_full : faults 0x2ABC (calls 16 [] State.reset) .stackOverflow = true := by decide

/-- 2.1 rows 8 and 9. -/
theorem test_step_seImm : (after 0x3A42 (regs [(10, 0x42)]) (fun t => t.pc == 0x204) &&
    after 0x3A42 (regs [(10, 0x43)]) (fun t => t.pc == 0x202)) = true := by decide

/-- 2.1 rows 10 and 11. -/
theorem test_step_sneImm : (after 0x4A42 (regs [(10, 0x42)]) (fun t => t.pc == 0x202) &&
    after 0x4A42 (regs [(10, 0x43)]) (fun t => t.pc == 0x204)) = true := by decide

/-- 2.1 rows 12 and 13: n is ignored. -/
theorem test_step_seReg : (after 0x5AB0 (regs [(10, 1), (11, 2)]) (fun t => t.pc == 0x202) &&
    after 0x5AB7 (regs [(10, 1), (11, 1)]) (fun t => t.pc == 0x204)) = true := by decide

/-- 2.1 rows 15 and 16: n is ignored. -/
theorem test_step_sneReg : (after 0x9AB0 (regs [(10, 1), (11, 2)]) (fun t => t.pc == 0x204) &&
    after 0x9ABF (regs [(10, 1), (11, 1)]) (fun t => t.pc == 0x202)) = true := by decide

/-- 2.1 row 18. -/
theorem test_step_jpV0 : after 0xBFFF (regs [(0, 0xFF)]) (fun t => t.pc == 0x10FE) = true := by decide

/-- 2.2 row 1. -/
theorem test_step_ldImm : after 0x6FAB State.reset (fun t => t.reg 15 == 0xAB && t.pc == 0x202) = true := by decide

/-- 2.2 rows 2 and 3. -/
theorem test_step_addImm : (after 0x7105 (regs [(1, 0xFE)]) (fun t => t.reg 1 == 0x03 && t.reg 15 == 0) &&
    after 0x7F01 (regs [(15, 0xFF)]) (fun t => t.reg 15 == 0)) = true := by decide

/-- 2.2 row 5. -/
theorem test_step_ldReg : after 0x8120 (regs [(1, 1), (2, 0x37)]) (fun t => t.reg 1 == 0x37 && t.reg 2 == 0x37) = true := by
  decide

/-- 2.2 row 6. -/
theorem test_step_orReg : after 0x8121 (regs [(1, 0x0F), (2, 0xF0), (15, 1)]) (fun t =>
    t.reg 1 == 0xFF && t.reg 15 == 1) = true := by decide

/-- 2.2 row 7. -/
theorem test_step_andReg : after 0x8122 (regs [(1, 0x3C), (2, 0x0F), (15, 1)]) (fun t =>
    t.reg 1 == 0x0C && t.reg 15 == 1) = true := by decide

/-- 2.2 row 8. -/
theorem test_step_xorReg : after 0x8123 (regs [(1, 0xFF), (2, 0x0F), (15, 1)]) (fun t =>
    t.reg 1 == 0xF0 && t.reg 15 == 1) = true := by decide

/-- S3. -/
theorem test_step_addReg : after 0x8124 (regs [(1, 200), (2, 100)]) (fun t => t.reg 1 == 44 && t.reg 15 == 1) = true := by
  decide

/-- 2.2 rows 12 and 15: a sum of 255 is no carry, and the carry overwrites a sum in VF. -/
theorem test_step_addReg_vf : (after 0x8124 (regs [(1, 100), (2, 155)]) (fun t => t.reg 1 == 255 && t.reg 15 == 0) &&
    after 0x8F14 (regs [(15, 200), (1, 100)]) (fun t => t.reg 15 == 1)) = true := by decide

/-- S4 and 2.2 row 20: equal operands clear the flag. -/
theorem test_step_subReg : (after 0x8125 (regs [(1, 10), (2, 20)]) (fun t => t.reg 1 == 246 && t.reg 15 == 0) &&
    after 0x8125 (regs [(1, 7), (2, 7), (15, 1)]) (fun t => t.reg 1 == 0 && t.reg 15 == 0)) = true := by decide

/-- 2.2 rows 24 and 26. -/
theorem test_step_subReg_vf : (after 0x8F15 (regs [(15, 5), (1, 3)]) (fun t => t.reg 15 == 254) &&
    after 0x81F5 (regs [(1, 10), (15, 3)]) (fun t => t.reg 15 == 1 && t.reg 1 == 9)) = true := by decide

/-- 2.2 row 31: y is not read. -/
theorem test_step_shr : after 0x81A6 (regs [(1, 0xFF), (10, 0x10)]) (fun t =>
    t.reg 1 == 0x7F && t.reg 15 == 1 && t.reg 10 == 0x10) = true := by decide

/-- 2.2 row 35. -/
theorem test_step_shr_vf : after 0x8F06 (regs [(15, 0xFE)]) (fun t => t.reg 15 == 0) = true := by decide

/-- 2.2 rows 36 and 37. -/
theorem test_step_subnReg : (after 0x8127 (regs [(1, 10), (2, 20)]) (fun t => t.reg 1 == 10 && t.reg 15 == 1) &&
    after 0x8127 (regs [(1, 20), (2, 10), (15, 1)]) (fun t => t.reg 1 == 246 && t.reg 15 == 0)) = true := by decide

/-- 2.2 rows 39 and 41. -/
theorem test_step_subnReg_vf : (after 0x8F17 (regs [(15, 5), (1, 9)]) (fun t => t.reg 15 == 8) &&
    after 0x81F7 (regs [(1, 3), (15, 5)]) (fun t => t.reg 15 == 1 && t.reg 1 == 254)) = true := by decide

/-- 2.2 row 46: y is not read. -/
theorem test_step_shl : after 0x81AE (regs [(1, 0x80), (10, 0x33)]) (fun t =>
    t.reg 1 == 0 && t.reg 15 == 1 && t.reg 10 == 0x33) = true := by decide

/-- 2.2 row 48. -/
theorem test_step_shl_vf : after 0x8F0E (regs [(15, 0x80)]) (fun t => t.reg 15 == 2) = true := by decide

/-- 2.2 row 51, with the byte the vector names in the place of the free value. -/
theorem test_rnd_byte_A7 : (rndWith 0xA7 3 0x0F State.reset).reg 3 = 0x07 := by decide

/-- 2.3 row 1. -/
theorem test_step_ldI : after 0xAFFF State.reset (fun t => t.I == 0xFFF) = true := by decide

/-- 2.3 rows 3 and 6. -/
theorem test_step_addI : (after 0xF21E { regs [(2, 1), (15, 1)] with I := 0xEFF } (fun t => t.I == 0xF00 && t.reg 15 == 0) &&
    after 0xF21E { regs [(2, 0xFF)] with I := 0xFFF } (fun t => t.I == 0x10FE && t.reg 15 == 1)) = true := by decide

/-- 2.3 rows 8 and 11. -/
theorem test_step_addI_vf : (after 0xFF1E { regs [(15, 2)] with I := 0xEFF } (fun t => t.I == 0xF01 && t.reg 15 == 1) &&
    faults 0xF21E { regs [(2, 0xFF)] with I := 0xFF01 } .memoryOutOfBounds) = true := by decide

/-- 2.3 row 16. -/
theorem test_step_ldF : after 0xF029 { regs [(0, 0xFF), (15, 1)] with I := 7 } (fun t =>
    t.I == 0x4FB && t.reg 15 == 1) = true := by decide

/-- S7. -/
theorem test_step_ldB : after 0xF033 { regs [(0, 234)] with I := 0x300 } (fun t =>
    t.mem.read 0x300 == 2 && t.mem.read 0x301 == 3 && t.mem.read 0x302 == 4) = true := by decide

/-- 2.3 rows 20 and 21. -/
theorem test_step_ldB_top : (after 0xF033 { regs [(0, 255)] with I := 0xFFD } (fun t => t.mem.read 0xFFF == 5) &&
    faults 0xF033 { regs [(0, 255)] with I := 0xFFE } .memoryOutOfBounds) = true := by decide

/-- 2.3 row 24. -/
theorem test_step_stRegs : after 0xF255 { regs [(0, 1), (1, 2), (2, 3), (3, 4)] with I := 0x400 } (fun t =>
    t.mem.read 0x402 == 3 && t.mem.read 0x403 == 0 && t.I == 0x400) = true := by decide

/-- 2.3 rows 25 and 26. -/
theorem test_step_stRegs_top : (after 0xF055 { regs [(0, 0xAA)] with I := 0xFFF } (fun t => t.mem.read 0xFFF == 0xAA) &&
    faults 0xF155 { regs [(0, 0xAA), (1, 0xBB)] with I := 0xFFF } .memoryOutOfBounds) = true := by decide

/-- 2.3 row 30. -/
theorem test_step_ldRegs : after 0xF265 (bytes 0x300 [2, 3, 4, 5] { regs [(3, 0x77)] with I := 0x300 }) (fun t =>
    t.reg 2 == 4 && t.reg 3 == 0x77 && t.I == 0x300) = true := by decide

/-- 2.3 row 33: the font. -/
theorem test_step_ldRegs_font : after 0xFF65 State.reset (fun t =>
    t.reg 0 == 0xF0 && t.reg 5 == 0x20 && t.reg 9 == 0x70 && t.reg 15 == 0xF0) = true := by decide

/-- 2.4 row 1. -/
theorem test_step_drw : after 0xD121 (bytes 0x300 [0xF0] { regs [(1, 62)] with I := 0x300 }) (fun t =>
    t.pixel 0 62 && t.pixel 0 63 && t.pixel 0 0 && t.pixel 0 1 && !t.pixel 0 2 && t.needRedraw) = true := by decide

/-- 2.4 row 15: the row is taken from the old VF, and the collision is OR-ed into it. -/
theorem test_step_drw_vf : after 0xD1F1 (lit [(2, 5)] (bytes 0x300 [0xC0] { regs [(15, 2), (1, 5)] with I := 0x300 }))
    (fun t => !t.pixel 2 5 && t.pixel 2 6 && t.reg 15 == 3) = true := by decide

/-- 2.5 rows 1 and 2. -/
theorem test_step_skp : (after 0xE39E (pressed [7] { regs [(3, 7)] with pc := 0x210 }) (fun t => t.pc == 0x214) &&
    after 0xE39E { regs [(3, 7)] with pc := 0x210 } (fun t => t.pc == 0x212)) = true := by decide

/-- 2.5 row 6: not masked to 0. -/
theorem test_step_skp_range : faults 0xE39E (pressed [0] (regs [(3, 16)])) .keyIndexOutOfRange = true := by decide

/-- 2.5 rows 3 and 4. -/
theorem test_step_sknp : (after 0xE3A1 { regs [(3, 7)] with pc := 0x210 } (fun t => t.pc == 0x214) &&
    after 0xE3A1 (pressed [7] { regs [(3, 7)] with pc := 0x210 }) (fun t => t.pc == 0x212)) = true := by decide

/-- 2.5 row 7. -/
theorem test_step_sknp_range : faults 0xE3A1 (regs [(3, 0xFF)]) .keyIndexOutOfRange = true := by decide

/-- 2.5 row 9. -/
theorem test_step_ldVxK_waits : after 0xF30A { State.reset with DT := 9, ST := 4 } (fun t =>
    t.waiting && t.pc == 0x200 && t.DT == 9 && t.ST == 4) = true := by decide

/-- 2.5 row 10. -/
theorem test_step_ldVxK_finds : after 0xF30A (pressed [7, 9] { State.reset with DT := 9, ST := 4 }) (fun t =>
    t.reg 3 == 7 && !t.waiting && t.pc == 0x202 && t.DT == 8 && t.ST == 3) = true := by decide

/-- 2.5 row 14. -/
theorem test_step_ldVxDT : after 0xF407 { State.reset with DT := 8 } (fun t => t.reg 4 == 8 && t.DT == 7) = true := by
  decide

/-- 2.5 row 19. -/
theorem test_step_ldDTVx : after 0xF015 { regs [(0, 10)] with ST := 1 } (fun t => t.DT == 9 && t.ST == 0) = true := by
  decide

/-- 2.5 row 20. -/
theorem test_step_ldSTVx : after 0xF118 { regs [(1, 3)] with DT := 1 } (fun t => t.ST == 2 && t.DT == 0) = true := by
  decide

/-- 2.6 row 9: whatever the last byte of memory holds. -/
theorem test_fetch_above_memory :
    faults 0x0000 (bytes 0xFFF [0x12] { State.reset with pc := 0xFFF }) .memoryOutOfBounds = true := by decide

/-- R250: the numbers of the five causes. -/
theorem test_fault_numbers : (Fault.unimplementedOpcode 0).cause = 1 ∧ Fault.stackOverflow.cause = 2 ∧
    Fault.stackUnderflow.cause = 3 ∧ Fault.memoryOutOfBounds.cause = 4 ∧ Fault.keyIndexOutOfRange.cause = 5 := by decide

/-- R44, R31: a lit cell reads as 1 at its linear index. -/
theorem test_fb_read : fbReadLinear (lit [(31, 62)] State.reset) 2046 = 1 ∧ fbReadLinear State.reset 2046 = 0 := by decide

/-! ### Witnesses: states and operands that meet the hypotheses of the obligations -/

/-- A state with the word placed at `pc`. -/
def placed (w : Nat) (s : State) : State := s.withFetchWord 16 w

/-- Whether an instruction answers a next state with a property. -/
def runs (i : Instr) (s : State) (p : State → Bool) : Bool :=
  match exec i s with
  | .next t => p t
  | _ => false

theorem runs_witness {i : Instr} {s : State} {p : State → Bool} (h : runs i s p = true) :
    ∃ t, exec i s = .next t ∧ p t = true := by
  unfold runs at h
  split at h
  · next t e => exact ⟨t, e, h⟩
  · cases h

theorem after_witness {w : Nat} {s : State} {p : State → Bool} (h : after w s p = true) :
    ∃ t, step (placed w s) = .next t ∧ p t = true := by
  unfold after at h
  split at h
  · next t e => exact ⟨t, e, h⟩
  · cases h

theorem fetches_witness {s : State} {w : Word} {i : Instr} (hf : accessOk s.pc.toNat 2 = true)
    (hw : s.mem.readWord s.pc.toNat = w) (hd : decode w = some i) : Fetches s i :=
  ⟨w, by rw [State.fetch, if_pos hf, hw], hd⟩

/-- A well-formed instruction with every operand at the end of its range. -/
theorem witness_DecodeOfEncode : (Instr.drw 15 15 15).wf = true := by decide

/-- One row of the map accepts a word, and the hypotheses of its second clause are met. -/
theorem witness_OpcodeMapIsTheDecoder : ∃ r ∈ opcodeMap, r.accepts 0x5AB7 = true ∧ r.mnemonic = "SE_Vx_Vy" :=
  ⟨⟨"SE_Vx_Vy", 0x5000, 0xF000⟩, by decide, by decide, rfl⟩

/-- Illegal words at the ends of each range, and a state that fetches one. -/
theorem witness_IllegalWordsFault :
    ([0x0000, 0x0FFF, 0x8008, 0x800D, 0x8FFF, 0xE09D, 0xEFFF, 0xF000, 0xFFFF].all
      (fun w : Word => (decode w).isNone) = true) ∧
    (placed 0xF000 State.reset).fetch = .ok 0xF000 ∧ decode 0xF000 = none := ⟨by decide, rfl, by decide⟩

/-- The last address that can be fetched from, and the first that cannot. -/
theorem witness_FetchIsBigEndianAndBounded :
    ({ State.reset with pc := 0x0FFE } : State).pc.toNat ≤ 0x0FFE ∧
    ({ State.reset with pc := 0x0FFF } : State).pc.toNat > 0x0FFE := by decide

theorem witness_StepRunsTheDecodedInstruction : ∃ s : State, s.pc.toNat ≤ 0x0FFE ∧
    decode (wordOfBytes (s.mem.read s.pc.toNat) (s.mem.read (s.pc.toNat + 1))) = some (.jp 0x204) :=
  ⟨placed 0x1204 State.reset, by decide, by decide⟩

/-- A handler that completes and leaves `waiting` 0, one that leaves it 1, and one that faults. -/
theorem witness_TimerStepCountsDown :
    (Fetches (placed 0x1204 State.reset) (.jp 0x204) ∧
      ∃ t, exec (.jp 0x204) (placed 0x1204 State.reset) = .next t ∧ (!t.waiting) = true) ∧
    (Fetches (placed 0xF30A State.reset) (.ldVxK 3) ∧
      ∃ t, exec (.ldVxK 3) (placed 0xF30A State.reset) = .next t ∧ t.waiting = true) ∧
    (Fetches (placed 0x00EE State.reset) .ret ∧ exec .ret (placed 0x00EE State.reset) = .fault .stackUnderflow) :=
  ⟨⟨fetches_witness (w := 0x1204) (by decide) (by decide) (by decide), runs_witness (by decide)⟩,
   ⟨fetches_witness (w := 0xF30A) (by decide) (by decide) (by decide), runs_witness (by decide)⟩,
   ⟨fetches_witness (w := 0x00EE) (by decide) (by decide) (by decide), rfl⟩⟩

/-- Each of the seven causes occurs. -/
theorem witness_HandlerFaultsAreExactlyTheListed :
    exec (.call 0) (calls 16 [] State.reset) = .fault .stackOverflow ∧ exec .ret State.reset = .fault .stackUnderflow ∧
    exec (.drw 1 2 1) { State.reset with I := 0x1000 } = .fault .memoryOutOfBounds ∧
    exec (.ldB 0) { State.reset with I := 0x0FFE } = .fault .memoryOutOfBounds ∧
    exec (.stRegs 1) { State.reset with I := 0x0FFF } = .fault .memoryOutOfBounds ∧
    exec (.ldRegs 15) { State.reset with I := 0x0FF1 } = .fault .memoryOutOfBounds ∧
    exec (.addI 2) { regs [(2, 0xFF)] with I := 0xFF01 } = .fault .memoryOutOfBounds ∧
    exec (.skp 3) (regs [(3, 16)]) = .fault .keyIndexOutOfRange := ⟨rfl, rfl, rfl, rfl, rfl, rfl, rfl, rfl⟩

theorem witness_FaultIsPermanent : step { State.reset with pc := 0x1000 } = .fault .memoryOutOfBounds := rfl

/-- The largest image that fits, with an index of its last byte. -/
theorem witness_LoadPlacesTheImage :
    (List.replicate 3584 (0xAA : Byte)).length ≤ 3584 ∧ 3583 < (List.replicate 3584 (0xAA : Byte)).length := by
  simp only [List.length_replicate]
  decide

/-- The smallest image that does not fit. -/
theorem witness_OversizedRomIsRejected : (List.replicate 3585 (0xAA : Byte)).length > 3584 := by
  simp only [List.length_replicate]
  decide

/-- A waiting state at LD V3,K with a full stack meets the invariant, and its step completes. -/
theorem witness_StepKeepsTheInvariant : ∃ s t : State, Inv s ∧ s.waiting = true ∧ step s = .next t := by
  let s := placed 0xF30A { calls 16 [(15, 0x0FFE)] State.reset with waiting := true }
  have h : Inv s := ⟨by decide, by decide, by decide,
    fun _ => ⟨0xF30A, 3, (fetch_ok.mpr ⟨by decide, by decide⟩ : s.fetch = .ok 0xF30A), by decide⟩⟩
  obtain ⟨t, ht, -⟩ := after_witness (w := 0xF30A) (s := { calls 16 [(15, 0x0FFE)] State.reset with waiting := true })
    (p := fun _ => true) (by decide)
  exact ⟨s, t, h, rfl, ht⟩

/-- A state with the largest `pc` meets the invariant. -/
theorem witness_HostActionKeepsTheInvariant : Inv { State.reset with pc := 0x10FE } :=
  ⟨by decide, by decide, by decide, fun h => absurd h (by decide)⟩

/-- A reachable state: after a load of two bytes, a key press and a step. -/
theorem witness_ReachableStatesMeetTheInvariant : ∃ s, Reachable s :=
  ⟨_, [0x12, 0x00], _, [.act (.setKey 7 true), .step], rfl, rfl⟩

/-- The last address of memory, and two memories that agree. -/
theorem witness_CanonicalMemory : Memory.wf [(0x200, 0x12)] ∧ 4095 < 4096 ∧
    ∀ a, Memory.read [(0x200, 0x12)] a = Memory.read [(0x200, 0x12)] a := ⟨by decide, by decide, fun _ => rfl⟩

/-- The last place a word can be stored and then fetched. -/
theorem witness_StoreIsSeenByTheNextFetch : ∃ s : State, (1 : Reg).val ≥ 1 ∧ s.I = s.pc + 2 ∧
    s.I.toNat + (1 : Reg).val ≤ 0xFFF := ⟨{ State.reset with pc := 0xFFC, I := 0xFFE }, by decide, by decide, by decide⟩

/-- A state in which every instruction completes. -/
def busy : State := pressed [0] (lit [(0, 0)] { regs [(1, 1), (2, 9)] with
  pc := 0x0FFC, I := 0x300, SP := 15, Stack := State.reset.Stack.set 14 0x400, DT := 5, ST := 7, waiting := true
  mem := [(0x300, 0xC0), (0x301, 0x55)] })

def controlInstrs : List Instr :=
  [.cls, .ret, .jp 0xFFF, .call 0xABC, .seImm 1 1, .sneImm 1 1, .seReg 1 2, .sneReg 1 2, .jpV0 0xFFF, .skp 0, .sknp 0]

def aluInstrs : List Instr :=
  [.ldImm 1 7, .addImm 1 255, .ldReg 1 2, .orReg 1 2, .xorReg 1 2, .addReg 1 2, .subReg 1 2, .shr 1, .subnReg 1 2, .shl 1]

def otherInstrs : List Instr :=
  [.andReg 1 2, .rnd 1 0, .ldI 0xFFF, .addI 2, .ldF 2, .ldB 1, .stRegs 2, .ldRegs 2, .drw 0 0 2, .ldDTVx 2, .ldSTVx 2]

def inputInstrs : List Instr := [.ldVxDT 1, .ldVxK 1]

def everyInstr : List Instr := controlInstrs ++ aluInstrs ++ otherInstrs ++ inputInstrs

/-- For ProgramCounterRule and the claims after it: every instruction has a next state. -/
theorem witness_ProgramCounterRule : ∀ i ∈ everyInstr, ∃ t, exec i busy = .next t ∧ true = true := by
  intro i hi
  have : everyInstr.all (fun i => runs i busy (fun _ => true)) = true := by decide
  exact runs_witness (List.all_eq_true.mp this i hi)

/-- LD Vx,K with no key pressed, the other clause of its arm. -/
theorem witness_ProgramCounterRule_no_key : (∀ k, State.reset.key k = false) ∧
    exec (.ldVxK 1) State.reset = .next { State.reset with waiting := true } := ⟨by decide, rfl⟩

/-- Each instruction that the rule lists changes a register of the list in some state. -/
theorem witness_OnlyListedRegistersAreWritten :
    ∀ i ∈ aluInstrs ++ inputInstrs, ∃ t, exec i busy = .next t ∧ (t.reg 1 != busy.reg 1) = true := by
  have all : (aluInstrs ++ inputInstrs).all (fun i => runs i busy (fun t => t.reg 1 != busy.reg 1)) = true := by decide
  exact fun i hi => runs_witness (List.all_eq_true.mp all i hi)

/-- RND: masked with 0 it changes a register that is not 0, whatever the random byte. -/
theorem witness_OnlyListedRegistersAreWritten_rnd :
    ∃ t, exec (.rnd 1 0) busy = .next t ∧ t.reg 1 ≠ busy.reg 1 := by
  refine ⟨_, rfl, ?_⟩
  have h : (rndWith (Config.rndByte busy.rndCount) 1 0 busy).reg 1 = Config.rndByte busy.rndCount &&& 0 :=
    State.setReg_reg_same _ _ _
  rw [h, show (0 : Byte) = 0#8 from rfl, BitVec.and_zero]
  decide

/-- The collision flag, the flag of ADD I,Vx, AND and LD Vx,[I]. -/
theorem witness_OnlyListedRegistersAreWritten_more :
    (∃ t, exec (.drw 0 0 1) busy = .next t ∧ (t.reg 15 != busy.reg 15) = true) ∧
    (∃ t, exec (.addI 2) { busy with I := 0x0F00 } = .next t ∧ (t.reg 15 != busy.reg 15) = true) ∧
    (∃ t, exec (.andReg 2 1) busy = .next t ∧ (t.reg 2 != busy.reg 2) = true) ∧
    (∃ t, exec (.ldRegs 1) busy = .next t ∧ (t.reg 1 != busy.reg 1) = true) :=
  ⟨runs_witness (by decide), runs_witness (by decide), runs_witness (by decide), runs_witness (by decide)⟩

/-- A change of each special register that the claim speaks of. -/
theorem witness_OnlyListedHandlersWriteSpecialRegisters :
    (∃ t, exec (.ldI 0xFFF) busy = .next t ∧ (t.I != busy.I) = true) ∧
    (∃ t, exec .ret busy = .next t ∧ (t.SP != busy.SP) = true) ∧
    (∃ t, exec (.call 0) busy = .next t ∧ (t.stackAt 15 != busy.stackAt 15) = true) ∧
    (∃ t, exec (.ldDTVx 2) busy = .next t ∧ (t.DT != busy.DT) = true) ∧
    (∃ t, exec (.ldSTVx 2) busy = .next t ∧ (t.ST != busy.ST) = true) ∧
    (∃ t, exec (.ldVxK 1) busy = .next t ∧ (t.waiting != busy.waiting) = true) ∧
    (∃ t, exec (.drw 0 0 0) busy = .next t ∧ (t.needRedraw != busy.needRedraw) = true) :=
  ⟨runs_witness (by decide), runs_witness (by decide), runs_witness (by decide), runs_witness (by decide),
   runs_witness (by decide), runs_witness (by decide), runs_witness (by decide)⟩

/-- A change of memory by each of the two, and of the framebuffer by each of the two. -/
theorem witness_OnlyListedHandlersWriteMemoryAndFramebuffer :
    (∃ t, exec (.ldB 1) busy = .next t ∧ (t.mem.read 0x300 != busy.mem.read 0x300) = true) ∧
    (∃ t, exec (.stRegs 1) busy = .next t ∧ (t.mem.read 0x301 != busy.mem.read 0x301) = true) ∧
    (∃ t, exec .cls busy = .next t ∧ (t.pixel 0 0 != busy.pixel 0 0) = true) ∧
    (∃ t, exec (.drw 0 0 1) busy = .next t ∧ (t.pixel 0 1 != busy.pixel 0 1) = true) :=
  ⟨runs_witness (by decide), runs_witness (by decide), runs_witness (by decide), runs_witness (by decide)⟩

/-- An instruction that reads no input, one that completes and one that faults, in both clauses. -/
theorem witness_InputsAreReadOnlyByTheListed :
    ((∀ x, Instr.rnd 1 0 ≠ .skp x) ∧ (∀ x, Instr.rnd 1 0 ≠ .sknp x) ∧ (∀ x, Instr.rnd 1 0 ≠ .ldVxK x) ∧
      ∃ t, exec (.rnd 1 0) busy = .next t ∧ true = true) ∧
    ((∀ x, Instr.ret ≠ .skp x) ∧ (∀ x, Instr.ret ≠ .sknp x) ∧ (∀ x, Instr.ret ≠ .ldVxK x) ∧
      (∀ x kk, Instr.ret ≠ .rnd x kk) ∧ exec .ret State.reset = .fault .stackUnderflow) ∧
    ((∀ x kk, Instr.skp 0 ≠ .rnd x kk) ∧ ∃ t, exec (.skp 0) busy = .next t ∧ true = true) :=
  ⟨⟨by simp, by simp, by simp, runs_witness (by decide)⟩, ⟨by simp, by simp, by simp, by simp, rfl⟩,
   ⟨by simp, runs_witness (by decide)⟩⟩

theorem witness_SoundTimerAndRedrawAreUnreadable :
    (∃ t, step (placed 0xF118 busy) = .next t ∧ true = true) ∧ step State.reset = .fault (.unimplementedOpcode 0) :=
  ⟨after_witness (by decide), rfl⟩

/-- The register cases of the two-operand instructions: VF as neither operand, as either, and as both. -/
theorem witness_RegisterCases : (1 : Reg) ≠ 15 ∧ (2 : Reg) ≠ 15 ∧ (15 : Reg) = 15 ∧ (14 : Reg) ≠ 15 := by decide

/-- A full stack, and the last and first slots. -/
theorem witness_CallPushesItsOwnAddress : (calls 16 [] State.reset).SP.val = 16 ∧
    (calls 15 [] State.reset).SP.val = (15 : Fin 16).val ∧ State.reset.SP.val = (0 : Fin 16).val := by decide

/-- An empty stack, and the last and first slots. -/
theorem witness_ReturnAddsTwo : State.reset.SP.val = 0 ∧
    (calls 16 [] State.reset).SP.val = (15 : Fin 16).val + 1 ∧
    (calls 1 [] State.reset).SP.val = (0 : Fin 16).val + 1 := by decide

/-- A call into the last slot, and the state right after it as the state RET runs in. -/
theorem witness_ReturnResumesAfterTheCall : (calls 15 [] State.reset).SP.val < 16 ∧
    ∃ t, exec (.call 0x300) (calls 15 [] State.reset) = .next t ∧ t.SP = t.SP ∧ t.Stack = t.Stack :=
  ⟨by decide, _, rfl, rfl, rfl⟩

/-- The largest value of the n field. -/
theorem witness_SkipOnRegister : 15 ≤ 15 := by decide

/-- A skip taken, one not taken, and the key test with a key pressed. -/
theorem witness_SkipPattern :
    (skipCondition busy (.seImm 1 1) = some (busy.reg 1 = 1) ∧ busy.reg 1 = 1 ∧
      ∃ t, exec (.seImm 1 1) busy = .next t ∧ true = true) ∧
    (skipCondition busy (.seReg 1 2) = some (busy.reg 1 = busy.reg 2) ∧ ¬ busy.reg 1 = busy.reg 2 ∧
      ∃ t, exec (.seReg 1 2) busy = .next t ∧ true = true) ∧
    ((∃ k : Key, k.val = (busy.reg 0).toNat ∧ busy.key k = true) ∧ ∃ t, exec (.skp 0) busy = .next t ∧ true = true) :=
  ⟨⟨rfl, by decide, runs_witness (by decide)⟩, ⟨rfl, by decide, runs_witness (by decide)⟩,
   ⟨⟨0, by decide, by decide⟩, runs_witness (by decide)⟩⟩

/-- The smallest value that names no key, and the largest that names one. -/
theorem witness_SkipOnKey : ((regs [(3, 16)]).reg 3).toNat > 15 ∧ ((regs [(3, 15)]).reg 3).toNat = (15 : Key).val := by
  decide

/-- No key, the last key alone, and two keys. -/
theorem witness_KeyWaitTakesTheLowestKey : (∀ k, State.reset.key k = false) ∧
    ((pressed [15] State.reset).key 15 = true ∧ ∀ j, j < 15 → (pressed [15] State.reset).key j = false) ∧
    ((pressed [7, 9] State.reset).key 7 = true ∧ ∀ j, j < 7 → (pressed [7, 9] State.reset).key j = false) := by decide

/-- Another instruction while running, the wait, and the key. -/
theorem witness_KeypadWaitMachine :
    (Fetches (placed 0x1204 State.reset) (.jp 0x204) ∧ (∀ x, Instr.jp 0x204 ≠ .ldVxK x) ∧
      State.reset.waiting = false ∧ ∃ t, step (placed 0x1204 State.reset) = .next t ∧ true = true) ∧
    (Fetches (placed 0xF30A State.reset) (.ldVxK 3) ∧ ∀ k, (placed 0xF30A State.reset).key k = false) ∧
    (Fetches (placed 0xF30A (pressed [7] State.reset)) (.ldVxK 3) ∧
      (placed 0xF30A (pressed [7] State.reset)).key 7 = true ∧
      ∀ j, j < 7 → (placed 0xF30A (pressed [7] State.reset)).key j = false) :=
  ⟨⟨fetches_witness (w := 0x1204) (by decide) (by decide) (by decide), by simp, rfl, after_witness (by decide)⟩,
   ⟨fetches_witness (w := 0xF30A) (by decide) (by decide) (by decide), by decide⟩,
   ⟨fetches_witness (w := 0xF30A) (by decide) (by decide) (by decide), by decide, by decide⟩⟩

theorem witness_KeyWaitHoldsWithoutAKey : Fetches (placed 0xF30A State.reset) (.ldVxK 3) ∧
    ∀ j, (placed 0xF30A State.reset).key j = false :=
  ⟨fetches_witness (w := 0xF30A) (by decide) (by decide) (by decide), by decide⟩

theorem witness_TimerWritesCountInTheirOwnCycle : State.reset.waiting = false ∧
    Fetches (placed 0xF015 State.reset) (.ldDTVx 0) ∧ Fetches (placed 0xF018 State.reset) (.ldSTVx 0) ∧
    Fetches (placed 0xF007 State.reset) (.ldVxDT 0) :=
  ⟨rfl, fetches_witness (w := 0xF015) (by decide) (by decide) (by decide),
   fetches_witness (w := 0xF018) (by decide) (by decide) (by decide),
   fetches_witness (w := 0xF007) (by decide) (by decide) (by decide)⟩

/-- The smallest sum that does not fit, and the largest that does. -/
theorem witness_IndexAddSetsTheFlag :
    ({ regs [(2, 0xFF)] with I := 0xFF01 } : State).I.toNat + ((regs [(2, 0xFF)]).reg 2).toNat > 0xFFFF ∧
    ({ regs [(2, 0xFE)] with I := 0xFF01 } : State).I.toNat + ((regs [(2, 0xFE)]).reg 2).toNat ≤ 0xFFFF := by decide

/-- Each instruction that accesses memory, the lowest address that faults, and a state that fetches one. -/
theorem witness_AddressesAreCheckedFirst :
    (lastOffset (.ldB 0) = some 2 ∧ lastOffset (.stRegs 15) = some 15 ∧ lastOffset (.ldRegs 0) = some 0 ∧
      lastOffset (.drw 0 0 15) = some 14) ∧
    ((0x0FF2 : Word).toNat + 14 > 0xFFF ∧ (0x0FF1 : Word).toNat + 14 ≤ 0xFFF) ∧
    Fetches (placed 0xF033 { State.reset with I := 0x0FFE }) (.ldB 0) :=
  ⟨⟨rfl, rfl, rfl, rfl⟩, by decide, fetches_witness (w := 0xF033) (by decide) (by decide) (by decide)⟩

/-- The reset state with a value in I. -/
def indexed (a : Word) : State := { State.reset with I := a }

/-- The lowest I that faults, and the highest that does not. -/
theorem witness_DecimalDigitsAreStored :
    (indexed 0x0FFE).I.toNat + 2 > 0xFFF ∧ (indexed 0x0FFD).I.toNat + 2 ≤ 0xFFF := by decide

/-- The lowest I that faults, and the highest that does not, with a register of the block and its last one. -/
theorem witness_RegistersAreStored : (indexed 0x0FF1).I.toNat + (15 : Reg).val > 0xFFF ∧
    (indexed 0x0FF0).I.toNat + (15 : Reg).val ≤ 0xFFF ∧ (0 : Reg) ≤ 15 ∧ (15 : Reg) ≤ 15 := by decide

/-- The lowest I that faults, and the highest that does not, with registers of the block and one above it. -/
theorem witness_RegistersAreLoaded : (indexed 0x0FF2).I.toNat + (14 : Reg).val > 0xFFF ∧
    (indexed 0x0FF1).I.toNat + (14 : Reg).val ≤ 0xFFF ∧ (14 : Reg) ≤ 14 ∧ (14 : Reg) < 15 := by decide

/-- The lowest I that faults with 15 rows, the highest that does not, and no row with I out of range. -/
theorem witness_DrawXorsTheSprite : (15 ≤ 15 ∧ 15 > 0 ∧ (indexed 0x0FF2).I.toNat + 15 - 1 > 0xFFF) ∧
    (15 ≤ 15 ∧ (indexed 0x0FF1).I.toNat + 15 - 1 ≤ 0xFFF) ∧ 0 ≤ 15 ∧ (indexed 0x2000).I.toNat > 0xFFF := by decide

/-- A covered cell that is lit, an uncovered cell, and a sprite that meets no lit cell. -/
theorem witness_DrawXorsTheSprite_cells :
    (SpriteCovers busy 0 0 1 0 0 ∧ busy.pixel 0 0 = true) ∧ ¬ SpriteCovers busy 0 0 1 1 0 ∧
    ∀ row col, SpriteCovers busy 0 0 0 row col → busy.pixel row col = false := by
  refine ⟨⟨⟨0, 0, by decide, by decide, rfl, rfl, by decide⟩, by decide⟩, ?_, ?_⟩
  · rintro ⟨r, c, hr, -, h, -⟩
    obtain rfl : r = 0 := by omega
    exact absurd h (by decide)
  · rintro row col ⟨r, c, hr, -⟩
    omega

/-- Two draws in a row of a sprite with a bit set. -/
theorem witness_DrawingTwiceRestores : ∃ t u, 2 ≤ 15 ∧ (0 : Reg) ≠ 15 ∧ exec (.drw 0 0 2) busy = .next t ∧
    exec (.drw 0 0 2) t = .next u ∧ SpriteCovers busy (busy.reg 0) (busy.reg 0) 2 0 0 ∧ (busy.reg 15).toNat ≤ 1 :=
  ⟨_, _, by decide, by decide, rfl, rfl, ⟨0, 0, by decide, by decide, by decide, by decide, by decide⟩, by decide⟩

theorem witness_IdleIsAFixedPoint : Idle (placed 0x1200 State.reset) :=
  ⟨0x1200, 0x200, fetch_ok.mpr ⟨by decide, by decide⟩, by decide, by decide, rfl, rfl⟩

theorem witness_SelfJumpCountsTheTimersDown : State.reset.waiting = false ∧
    Fetches (placed 0x1200 State.reset) (.jp 0x200) ∧ (0x200 : Addr).toNat = State.reset.pc.toNat :=
  ⟨rfl, fetches_witness (w := 0x1200) (by decide) (by decide) (by decide), by decide⟩

theorem witness_PlacedWordIsFetched : ({ State.reset with pc := 0x0FFE } : State).pc.toNat ≤ 0x0FFE := by decide

end Sys2Proof.Tests
end

section
/-! The fields an instruction can write, said once for every handler, and the claims about the state that follow:
how `pc` moves, which registers are written, and that every step keeps the invariant. -/

namespace Sys2Proof.Machine

/-! ### Reset (10_state.md R39, 70_reset_and_hazards.md R292) -/

@[simp] theorem reset_reg (r : Reg) : State.reset.reg r = 0 := Vector.getElem_replicate ..

@[simp] theorem reset_stackAt (j : Fin 16) : State.reset.stackAt j = 0 := Vector.getElem_replicate ..

@[simp] theorem reset_key (k : Key) : State.reset.key k = false := Vector.getElem_replicate ..

@[simp] theorem reset_pixel (row : Row) (col : Col) : State.reset.pixel row col = false := by
  simp [State.pixel, State.reset]

/-- Above the font memory is 0 at reset. -/
theorem resetByte_of_font_le {a : Nat} (h : 0x050 ≤ a) : resetByte a = 0 := List.getD_eq_default _ _ h

/-- Settles O12: the registers, stack, keys and cells are replicated zeros, and the font is read byte by byte. -/
theorem resetValues : Obligations.ResetValues :=
  ⟨reset_reg, rfl, rfl, rfl, reset_stackAt, rfl, rfl, rfl, rfl, reset_key, reset_pixel, by decide,
    fun _ => resetByte_of_font_le⟩

/-! ### The frame of every handler (10_state.md R37) -/

/-- `t` differs from `s` at most in the fields the instruction is listed as writing (10_state.md R37). -/
def WritesOnly (s t : State) : Instr → Prop
  | .jp _ | .jpV0 _ | .seImm _ _ | .sneImm _ _ | .seReg _ _ | .sneReg _ _ | .skp _ | .sknp _ =>
    t = { s with pc := t.pc }
  | .ret => t = { s with pc := t.pc, SP := t.SP }
  | .call _ => t = { s with pc := t.pc, SP := t.SP, Stack := t.Stack }
  | .ldImm _ _ | .addImm _ _ | .ldReg _ _ | .orReg _ _ | .andReg _ _ | .xorReg _ _ | .addReg _ _ | .subReg _ _ | .shr _
  | .subnReg _ _ | .shl _ | .ldVxDT _ | .ldRegs _ => t = { s with V := t.V, pc := t.pc }
  | .rnd _ _ => t = { s with V := t.V, pc := t.pc, rndCount := t.rndCount }
  | .ldI _ | .ldF _ => t = { s with pc := t.pc, I := t.I }
  | .addI _ => t = { s with V := t.V, pc := t.pc, I := t.I }
  | .ldDTVx _ => t = { s with pc := t.pc, DT := t.DT }
  | .ldSTVx _ => t = { s with pc := t.pc, ST := t.ST }
  | .ldVxK _ => t = { s with V := t.V, pc := t.pc, waiting := t.waiting }
  | .cls => t = { s with pc := t.pc, FB := t.FB }
  | .drw _ _ _ => t = { s with V := t.V, pc := t.pc, FB := t.FB, needRedraw := true }
  | .ldB _ | .stRegs _ => t = { s with pc := t.pc, mem := t.mem }

/-- A skip moves `pc` only. -/
theorem skipIf_writes_pc (s : State) (c : Bool) : s.skipIf c = { s with pc := (s.skipIf c).pc } := by
  rw [State.skipIf_eq]
  rfl

/-- Every handler that completes writes the listed fields only. -/
theorem exec_writesOnly {i : Instr} {s t : State} (h : exec i s = .next t) : WritesOnly s t i := by
  cases i with
  | seImm | sneImm | seReg | sneReg =>
    cases h
    exact skipIf_writes_pc s _
  | skp | sknp =>
    obtain ⟨k, -, rfl⟩ := keySkip_next.mp h
    rfl
  | ret =>
    obtain ⟨-, rfl⟩ := execRet_next.mp h
    rfl
  | call =>
    obtain ⟨hs, rfl⟩ := execCall_next.mp h
    rfl
  | addI =>
    obtain ⟨-, rfl⟩ := execAddI_next.mp h
    rfl
  | ldVxK x =>
    rcases execLdVxK_cases x s with ⟨-, e⟩ | ⟨k, -, e⟩ <;> cases e.symm.trans h <;> rfl
  | drw x y n =>
    obtain ⟨-, rfl⟩ := withAccess_next.mp h
    rw [drawRows_only]
    rfl
  | ldB =>
    obtain ⟨-, rfl⟩ := withAccess_next.mp h
    rfl
  | stRegs x =>
    obtain ⟨-, rfl⟩ := withAccess_next.mp h
    rw [storeRegs_eq]
    rfl
  | ldRegs x =>
    obtain ⟨-, rfl⟩ := withAccess_next.mp h
    rw [loadRegs_eq]
    rfl
  | _ =>
    cases h
    rfl

/-! ### Who writes each special register -/

section
variable {i : Instr} {s t : State} (h : exec i s = .next t)
include h

theorem exec_I_changed (hne : t.I ≠ s.I) : (∃ a, i = .ldI a) ∨ (∃ x, i = .addI x) ∨ ∃ x, i = .ldF x := by
  cases i with
  | ldI a => exact .inl ⟨a, rfl⟩
  | addI x => exact .inr (.inl ⟨x, rfl⟩)
  | ldF x => exact .inr (.inr ⟨x, rfl⟩)
  | _ => exact absurd (congrArg State.I (exec_writesOnly h)) hne

theorem exec_SP_changed (hne : t.SP ≠ s.SP) : (∃ a, i = .call a) ∨ i = .ret := by
  cases i with
  | call a => exact .inl ⟨a, rfl⟩
  | ret => exact .inr rfl
  | _ => exact absurd (congrArg State.SP (exec_writesOnly h)) hne

theorem exec_stackAt_changed (hne : ∃ j, t.stackAt j ≠ s.stackAt j) : ∃ a, i = .call a := by
  obtain ⟨j, hj⟩ := hne
  cases i with
  | call a => exact ⟨a, rfl⟩
  | _ => exact absurd (congrArg (State.stackAt · j) (exec_writesOnly h)) hj

theorem exec_DT_changed (hne : t.DT ≠ s.DT) : ∃ x, i = .ldDTVx x := by
  cases i with
  | ldDTVx x => exact ⟨x, rfl⟩
  | _ => exact absurd (congrArg State.DT (exec_writesOnly h)) hne

theorem exec_ST_changed (hne : t.ST ≠ s.ST) : ∃ x, i = .ldSTVx x := by
  cases i with
  | ldSTVx x => exact ⟨x, rfl⟩
  | _ => exact absurd (congrArg State.ST (exec_writesOnly h)) hne

theorem exec_waiting_changed (hne : t.waiting ≠ s.waiting) : ∃ x, i = .ldVxK x := by
  cases i with
  | ldVxK x => exact ⟨x, rfl⟩
  | _ => exact absurd (congrArg State.waiting (exec_writesOnly h)) hne

theorem exec_needRedraw_changed (hne : t.needRedraw ≠ s.needRedraw) :
    t.needRedraw = true ∧ ∃ x y n, i = .drw x y n := by
  cases i with
  | drw x y n => exact ⟨congrArg State.needRedraw (exec_writesOnly h), x, y, n, rfl⟩
  | _ => exact absurd (congrArg State.needRedraw (exec_writesOnly h)) hne

theorem exec_K : t.K = s.K := by
  cases i <;> exact (congrArg State.K (exec_writesOnly h) :)

end

/-- Settles O24, one lemma per special register. -/
theorem onlyListedHandlersWriteSpecialRegisters : Obligations.OnlyListedHandlersWriteSpecialRegisters :=
  fun _ _ _ h => ⟨exec_I_changed h, exec_SP_changed h, exec_stackAt_changed h, exec_DT_changed h, exec_ST_changed h,
    exec_waiting_changed h, exec_needRedraw_changed h, fun k => congrArg (·[k.val]) (exec_K h)⟩

/-! ### Who writes each general register (10_state.md R22) -/

/-- A changed register is one of those a frame allows to change. -/
theorem mem_of_reg_changed {L : List Reg} {s t : State} {r : Reg} (hf : SameRegs L s t) (hne : t.reg r ≠ s.reg r) :
    r ∈ L := by
  by_contra hr
  exact hne (hf r hr)

/-- One sprite row writes no register but VF. -/
theorem sameRegs_drawRow (s : State) (vx : Byte) (row : Row) (b : Byte) : SameRegs [vf] s (s.drawRow vx row b) := by
  intro r hr
  obtain ⟨-, -, hreg⟩ := rowFold_spec vx b row _ (spriteCols_distinct vx) s _ rfl
  rw [State.drawRow, hreg, if_neg (by simpa using hr)]

/-- The sprite loop writes no register but VF, whatever the number of rows. -/
theorem sameRegs_drawRows (s : State) (vx vy : Byte) (n : Nat) : SameRegs [vf] s (s.drawRows vx vy n) := by
  induction n with
  | zero => exact fun _ _ => rfl
  | succ n ih => exact fun r hr => (sameRegs_drawRow _ _ _ _ r hr).trans (ih r hr)

/-- Settles O23: a changed register is in the frame of its handler, and a handler for which the rule lists no register
leaves the whole register file as it was. -/
theorem onlyListedRegistersAreWritten : Obligations.OnlyListedRegistersAreWritten := by
  intro i s t r h hne
  cases i with
  | ldImm x | addImm x | ldReg x | orReg x | andReg x | xorReg x | rnd x | ldVxDT x =>
    cases h
    exact List.mem_singleton.mp (mem_of_reg_changed (sameRegs_setReg s x _) hne)
  | addReg x =>
    cases h
    simpa using mem_of_reg_changed (sameRegs_setReg_setVF s x _ _) hne
  | subReg x | subnReg x | shr x | shl x =>
    cases h
    simpa using mem_of_reg_changed (sameRegs_setVF_setReg s x _ _) hne
  | addI x =>
    obtain ⟨-, rfl⟩ := execAddI_next.mp h
    exact List.mem_singleton.mp (mem_of_reg_changed (sameRegs_setReg s vf _) hne)
  | drw x y n =>
    obtain ⟨-, rfl⟩ := withAccess_next.mp h
    exact List.mem_singleton.mp (mem_of_reg_changed (sameRegs_drawRows s _ _ n) hne)
  | ldVxK x =>
    rcases execLdVxK_cases x s with ⟨-, e⟩ | ⟨k, ⟨hk, -⟩, e⟩ <;> cases e.symm.trans h
    · exact absurd rfl hne
    · exact ⟨List.mem_singleton.mp (mem_of_reg_changed (sameRegs_setReg s x _) hne), k, hk⟩
  | ldRegs x =>
    obtain ⟨-, rfl⟩ := withAccess_next.mp h
    by_contra hr
    exact hne ((loadRegs_reg s x r).trans (if_neg hr))
  | _ => exact absurd (congrArg (State.reg · r) (exec_writesOnly h)) hne

/-! ### How `pc` moves (10_state.md R24) -/

@[simp] theorem drawRows_pc (s : State) (vx vy : Byte) (n : Nat) : (s.drawRows vx vy n).pc = s.pc :=
  (congrArg State.pc (drawRows_only s vx vy n) :)

@[simp] theorem storeRegs_pc (s : State) (x : Reg) : (s.storeRegs x).pc = s.pc :=
  (congrArg State.pc (storeRegs_eq s x) :)

@[simp] theorem loadRegs_pc (s : State) (x : Reg) : (s.loadRegs x).pc = s.pc :=
  (congrArg State.pc (loadRegs_eq s x) :)

/-- The slot RET reads is the one below SP. -/
theorem topSlot_succ {s : State} (h : s.SP.val ≠ 0) : s.topSlot.val + 1 = s.SP.val := Nat.succ_pred h

/-- Settles O22, one case per way of moving `pc`; the others end in `advance`. -/
theorem programCounterRule : Obligations.ProgramCounterRule := by
  intro i s t h
  cases i with
  | jp addr =>
    cases h
    exact addrWord_toNat addr
  | call addr =>
    obtain ⟨hs, rfl⟩ := execCall_next.mp h
    exact addrWord_toNat addr
  | ret =>
    obtain ⟨hs, rfl⟩ := execRet_next.mp h
    exact ⟨s.topSlot, topSlot_succ hs, rfl⟩
  | jpV0 addr =>
    cases h
    exact indexedTarget_toNat s addr
  | seImm | sneImm | seReg | sneReg =>
    cases h
    simp [State.skipIf_pc]
  | skp =>
    obtain ⟨k, hk, rfl⟩ := keySkip_next.mp h
    exact ⟨k, hk.symm, rfl⟩
  | sknp =>
    obtain ⟨k, hk, rfl⟩ := keySkip_next.mp h
    exact ⟨k, hk.symm, by cases s.key k <;> rfl⟩
  | ldVxK x =>
    rcases execLdVxK_cases x s with ⟨hno, e⟩ | ⟨k, ⟨hk, -⟩, e⟩ <;> cases e.symm.trans h
    · exact ⟨fun _ => rfl, fun ⟨k, hk⟩ => by simp [hno k] at hk⟩
    · exact ⟨fun hno => by simp [hno k] at hk, fun _ => rfl⟩
  | addI =>
    obtain ⟨-, rfl⟩ := execAddI_next.mp h
    rfl
  | drw | ldB | stRegs | ldRegs =>
    obtain ⟨-, rfl⟩ := withAccess_next.mp h
    simp [State.storeBcd]
  | _ =>
    cases h
    rfl

/-! ### The invariant (10_state.md R38) -/

/-- Wherever a completed instruction goes, it is at most 0x10FE: the largest target of JP V0,addr. -/
theorem exec_pc_le {i : Instr} {s t : State} (h : exec i s = .next t) (hpc : s.pc.toNat ≤ 0x0FFE)
    (hstack : ∀ j, (s.stackAt j).toNat ≤ 0x0FFE) : t.pc.toNat ≤ 0x10FE := by
  have rule := programCounterRule i s t h
  have le_four : (s.pc + 4).toNat ≤ 0x10FE := by bv_omega
  have le_two : (s.pc + 2).toNat ≤ 0x10FE := by bv_omega
  cases i with
  | jp addr | call addr =>
    have := addr.isLt
    simp only at rule
    omega
  | ret =>
    obtain ⟨j, -, rule⟩ := rule
    have := hstack j
    bv_omega
  | jpV0 addr =>
    have := addr.isLt
    have := (s.reg 0).isLt
    simp only at rule
    omega
  | seImm | sneImm | seReg | sneReg =>
    simp only at rule
    split at rule <;> rwa [rule]
  | skp | sknp =>
    obtain ⟨k, -, rule⟩ := rule
    split at rule <;> rwa [rule]
  | ldVxK =>
    obtain ⟨hold, move⟩ := rule
    by_cases hk : ∃ k, s.key k = true
    · rwa [move hk]
    · rw [hold (by simpa using hk)]
      omega
  | _ => rwa [show t.pc = s.pc + 2 from rule]

theorem le_memSize_of_accessOk {a n : Nat} (h : accessOk a (n + 1) = true) : a + (n + 1) ≤ Config.memSize :=
  ((accessOk_iff _ _).mp h).resolve_left (Nat.succ_ne_zero n)

theorem storeBcd_wf {s : State} (hs : s.mem.wf) (h : s.ea 0 + 3 ≤ Config.memSize) (b : Byte) :
    (s.storeBcd b).mem.wf := by
  have inside (k : Nat) (hk : k < 3) : s.ea k < Config.memSize := by
    unfold State.ea at *
    omega
  exact Memory.wf_write (Memory.wf_write (Memory.wf_write hs (inside 0 (by decide)) _) (inside 1 (by decide)) _)
    (inside 2 (by decide)) _

/-- A completed instruction keeps the canonical form of memory: its stores were all checked to be inside memory. -/
theorem exec_mem_wf {i : Instr} {s t : State} (h : exec i s = .next t) (hs : s.mem.wf) : t.mem.wf := by
  cases i with
  | ldB x =>
    obtain ⟨hok, rfl⟩ := withAccess_next.mp h
    exact storeBcd_wf hs (le_memSize_of_accessOk hok) _
  | stRegs x =>
    obtain ⟨hok, rfl⟩ := withAccess_next.mp h
    exact storeRegs_wf hs (le_memSize_of_accessOk hok)
  | _ =>
    have hmem := congrArg State.mem (exec_writesOnly h)
    exact hmem ▸ hs

/-- A completed instruction keeps every stack slot an address a CALL was fetched from: CALL pushes its own. -/
theorem exec_stackAt_le {i : Instr} {s t : State} (h : exec i s = .next t) (hpc : s.pc.toNat ≤ 0x0FFE)
    (hstack : ∀ j, (s.stackAt j).toNat ≤ 0x0FFE) (j : Fin 16) : (t.stackAt j).toNat ≤ 0x0FFE := by
  by_cases hj : t.stackAt j = s.stackAt j
  · rw [hj]
    exact hstack j
  · obtain ⟨addr, rfl⟩ := exec_stackAt_changed h ⟨j, hj⟩
    obtain ⟨hs, rfl⟩ := execCall_next.mp h
    rw [State.setPc_stackAt, State.push_stackAt]
    split
    · exact hpc
    · exact hstack j

/-- A handler that ends waiting was LD Vx,K with no key pressed, which is then fetched again. -/
theorem exec_waiting_fetches {i : Instr} {s t : State} (hi : Fetches s i) (h : exec i s = .next t)
    (hs : s.waiting = true → ∃ x, Fetches s (.ldVxK x)) (ht : t.waiting = true) : ∃ x, Fetches t (.ldVxK x) := by
  have isKeyWait : ∃ x, i = .ldVxK x := by
    by_cases hw : t.waiting = s.waiting
    · obtain ⟨x, hx⟩ := hs (hw ▸ ht)
      exact ⟨x, fetches_unique hi hx⟩
    · exact exec_waiting_changed h hw
  obtain ⟨x, rfl⟩ := isKeyWait
  rcases execLdVxK_cases x s with ⟨-, e⟩ | ⟨k, -, e⟩ <;> cases e.symm.trans h
  · exact ⟨x, fetches_congr rfl (fun _ => rfl) hi⟩
  · cases ht

/-- The invariant's clause on `waiting`, said with `Fetches`. -/
theorem Inv.waiting_fetches {s : State} (hs : Inv s) (hw : s.waiting = true) : ∃ x, Fetches s (.ldVxK x) := by
  obtain ⟨w, x, hf, hd⟩ := hs.waiting hw
  exact ⟨x, w, hf, hd⟩

/-- The handler of the fetched instruction keeps the invariant. -/
theorem exec_keeps_inv {i : Instr} {s t : State} (hs : Inv s) (hi : Fetches s i) (h : exec i s = .next t) : Inv t where
  mem := exec_mem_wf h hs.mem
  pc := exec_pc_le h (fetches_pc hi) hs.stack
  stack := exec_stackAt_le h (fetches_pc hi) hs.stack
  waiting ht := by
    obtain ⟨x, w, hf, hd⟩ := exec_waiting_fetches hi h hs.waiting_fetches ht
    exact ⟨w, x, hf, hd⟩

/-- The timers are no part of the invariant. -/
theorem timerStep_keeps_inv {s : State} (hs : Inv s) : Inv (timerStep s) := by
  rw [timerStep_eq]
  exact ⟨hs.mem, hs.pc, hs.stack, hs.waiting⟩

/-- Settles O16: a completed step is the handler of the fetched instruction and the timer step, and each keeps the
invariant. -/
theorem stepKeepsTheInvariant : Obligations.StepKeepsTheInvariant := by
  intro s t hs h
  obtain ⟨i, u, hi, hu, rfl⟩ := step_next.mp h
  exact timerStep_keeps_inv (exec_keeps_inv hs hi hu)

/-! ### ST and need_redraw are read by nothing (10_state.md R35)

A state is compared with another after `readable` has blanked the two fields no program can read; every operation of
the step commutes with that, so the step does. -/

/-- The part of a state that a program can read: ST and need_redraw are blanked. -/
def State.readable (s : State) : State := { s with ST := 0, needRedraw := false }

/-- The readable part of what an instruction or a step answers. -/
def readableResult : Result → Result
  | .next s => .next s.readable
  | .fault f => .fault f
  | .refused r => .refused r

/-- States with the same readable part differ only in ST and need_redraw. -/
theorem eq_of_readable_eq {s t : State} (h : t.readable = s.readable) :
    t = { s with ST := t.ST, needRedraw := t.needRedraw } :=
  (congrArg (fun u : State => { u with ST := t.ST, needRedraw := t.needRedraw }) h :)

theorem readableResult_next {r : Result} {t : State} (h : readableResult r = .next t.readable) :
    ∃ u, r = .next u ∧ u.readable = t.readable := by
  cases r with
  | next u => exact ⟨u, rfl, Host.Outcome.next.inj h⟩
  | fault | refused => cases h

theorem readableResult_fault {r : Result} {f : Fault} (h : readableResult r = .fault f) : r = .fault f := by
  cases r with
  | fault g => exact h
  | next | refused => cases h

/-! The operations. -/

theorem skipIf_readable (s : State) (c : Bool) : (s.readable.skipIf c).readable = (s.skipIf c).readable := by
  cases c <;> rfl

theorem drawRow_readable (s : State) (vx : Byte) (row : Row) (b : Byte) :
    s.readable.drawRow vx row b = (s.drawRow vx row b).readable :=
  List.foldl_hom State.readable (fun _ _ => rfl)

theorem drawRows_readable (s : State) (vx vy : Byte) (n : Nat) :
    s.readable.drawRows vx vy n = (s.drawRows vx vy n).readable := by
  induction n with
  | zero => rfl
  | succ n ih =>
    rw [State.drawRows, ih]
    exact drawRow_readable _ _ _ _

theorem storeRegs_readable (s : State) (x : Reg) : s.readable.storeRegs x = (s.storeRegs x).readable :=
  List.foldl_hom State.readable (fun _ _ => rfl)

theorem loadRegs_readable (s : State) (x : Reg) : s.readable.loadRegs x = (s.loadRegs x).readable :=
  List.foldl_hom State.readable (fun _ _ => rfl)

theorem timerStep_readable (s : State) : (timerStep s.readable).readable = (timerStep s).readable := by
  cases hw : s.waiting with
  | true =>
    rw [timerStep_of_waiting hw, timerStep_of_waiting (s := s.readable) hw]
    rfl
  | false =>
    rw [timerStep_of_running hw, timerStep_of_running (s := s.readable) hw]
    rfl

theorem withAccess_readable {a n : Nat} {s t : State} (h : s.readable = t.readable) :
    readableResult (withAccess a n s) = readableResult (withAccess a n t) := by
  unfold withAccess
  split
  · exact congrArg Host.Outcome.next h
  · rfl

theorem keySkip_readable (pressed : Bool) (x : Reg) (s : State) :
    readableResult (keySkip pressed x s.readable) = readableResult (keySkip pressed x s) := by
  have hk : s.readable.keyOf x = s.keyOf x := rfl
  unfold keySkip
  rw [hk]
  split
  · exact congrArg Host.Outcome.next (skipIf_readable s _)
  · rfl

/-- No handler reads ST or need_redraw. -/
theorem exec_readable (i : Instr) (s : State) :
    readableResult (exec i s.readable) = readableResult (exec i s) := by
  cases i with
  | seImm | sneImm | seReg | sneReg => exact congrArg Host.Outcome.next (skipIf_readable s _)
  | skp x => exact keySkip_readable true x s
  | sknp x => exact keySkip_readable false x s
  | ret =>
    show readableResult (if s.SP.val = 0 then _ else _) = readableResult (if s.SP.val = 0 then _ else _)
    split <;> rfl
  | call =>
    show readableResult (if h : s.SP.val < Config.stackDepth then _ else _) =
      readableResult (if h : s.SP.val < Config.stackDepth then _ else _)
    split <;> rfl
  | addI x =>
    show readableResult (if s.indexSum x > 0xFFFF then _ else _) =
      readableResult (if s.indexSum x > 0xFFFF then _ else _)
    split <;> rfl
  | ldVxK x =>
    have hk : s.readable.firstKey = s.firstKey := rfl
    simp only [exec, execLdVxK, hk]
    split <;> rfl
  | drw x y n =>
    exact withAccess_readable (congrArg (fun t => t.markRedraw.advance.readable) (drawRows_readable s _ _ n))
  | ldB => exact withAccess_readable rfl
  | stRegs x => exact withAccess_readable (congrArg (fun t => t.advance.readable) (storeRegs_readable s x))
  | ldRegs x => exact withAccess_readable (congrArg (fun t => t.advance.readable) (loadRegs_readable s x))
  | _ => rfl

/-- What follows the handler reads ST only to count it, and need_redraw not at all. -/
theorem finish_readable (r : Result) : readableResult (finish (readableResult r)) = readableResult (finish r) := by
  cases r with
  | next s => exact congrArg Host.Outcome.next (timerStep_readable s)
  | fault | refused => rfl

/-- No step reads ST or need_redraw. -/
theorem step_readable (s : State) : readableResult (step s.readable) = readableResult (step s) := by
  rcases fetch_cases s with ⟨f, hf⟩ | ⟨w, hw, hd⟩ | ⟨i, hi⟩
  · rw [step_of_fetch_error hf, step_of_fetch_error (s := s.readable) hf]
  · rw [step_of_illegal hw hd, step_of_illegal (s := s.readable) hw hd]
  · have hi' : Fetches s.readable i := hi
    rw [step_of_fetches hi, step_of_fetches hi', ← finish_readable, exec_readable, finish_readable]

/-- Settles O27: two states that differ only in ST and need_redraw have the same readable part, so the steps from them
answer the same up to those two fields. -/
theorem soundTimerAndRedrawAreUnreadable : Obligations.SoundTimerAndRedrawAreUnreadable := by
  intro s st b
  have same : readableResult (step { s with ST := st, needRedraw := b }) = readableResult (step s) :=
    (step_readable { s with ST := st, needRedraw := b }).symm.trans (step_readable s)
  constructor
  · intro t ht
    rw [ht] at same
    obtain ⟨u, hu, hut⟩ := readableResult_next same
    exact ⟨u, hu, eq_of_readable_eq hut⟩
  · intro f hf
    rw [hf] at same
    exact readableResult_fault same

end Sys2Proof.Machine
end

section
/-! The claims about main memory: reads after writes, who writes memory and the framebuffer, and the fetch. -/

namespace Sys2Proof.Machine

/-! ### Reads and writes (20_memory.md R69) -/

/-- Settles O19: the list that represents memory is read as the map it stands for. -/
theorem readAfterWrite : Obligations.ReadAfterWrite := fun m a b v => Memory.read_write m a v b

/-! ### Who writes memory and the framebuffer (10_state.md R37, 20_memory.md R67) -/

section
variable {i : Instr} {s t : State} (h : exec i s = .next t)
include h

theorem exec_mem_changed (hne : t.mem ≠ s.mem) : ∃ x, i = .ldB x ∨ i = .stRegs x := by
  cases i with
  | ldB x => exact ⟨x, .inl rfl⟩
  | stRegs x => exact ⟨x, .inr rfl⟩
  | _ => exact absurd (congrArg State.mem (exec_writesOnly h)) hne

theorem exec_FB_changed (hne : t.FB ≠ s.FB) : i = .cls ∨ ∃ x y n, i = .drw x y n := by
  cases i with
  | cls => exact .inl rfl
  | drw x y n => exact .inr ⟨x, y, n, rfl⟩
  | _ => exact absurd (congrArg State.FB (exec_writesOnly h)) hne

end

/-- Settles O25: a byte that reads otherwise is in another memory, a cell that differs in another framebuffer. -/
theorem onlyListedHandlersWriteMemoryAndFramebuffer : Obligations.OnlyListedHandlersWriteMemoryAndFramebuffer := by
  intro i s t h
  constructor
  · rintro ⟨a, ha⟩
    exact exec_mem_changed h fun hmem => ha (congrArg (Memory.read · a) hmem)
  · rintro ⟨row, col, hcell⟩
    exact exec_FB_changed h fun hfb => hcell (congrArg (fun fb => fb[row.val][col.val]) hfb)

/-! ### The fetch (20_memory.md R64, 40_cycle.md R121) -/

/-- A step that faults leaves the state as it was (60_exceptions.md R256). -/
theorem cycle_of_fault {s : State} {f : Fault} (h : step s = .fault f) : cycle s = (s, .fault f) := by
  simp only [cycle, h]

/-- Settles O6: the fetch is decided by whether both bytes at `pc` are in memory, and a fetch that faults ends the
step. -/
theorem fetchIsBigEndianAndBounded : Obligations.FetchIsBigEndianAndBounded := by
  intro s
  constructor
  · intro hpc
    exact ⟨_, fetch_ok.mpr ⟨hpc, rfl⟩, wordOfBytes_toNat _ _⟩
  · intro hpc
    have hstep : step s = .fault .memoryOutOfBounds := step_of_fetch_error (fetch_error.mpr ⟨hpc, rfl⟩)
    exact ⟨hstep, cycle_of_fault hstep⟩

end Sys2Proof.Machine
end

section
/-! The claims about the encoding (30_encoding.md): which fields select an instruction, said once for the decoder and
once for the canonical word, and what follows: the round trip, the opcode map and the illegal words. -/

namespace Sys2Proof

open Machine

/-! ### A word is an encoding exactly when its fields are the operands (30_encoding.md R92) -/

section
variable {f : Nat} {w : Word} {x y : Reg}

theorem eq_encAddr_iff (hf : f < 16) {addr : Addr} :
    w = encAddr f addr ↔ fieldFamily w = f ∧ fieldAddr w = addr := by
  have := addr.isLt
  rw [← BitVec.toNat_inj, encAddr_toNat hf, fieldFamily_eq, ← BitVec.toNat_inj, fieldAddr_toNat]
  omega

theorem eq_encXkk_iff (hf : f < 16) {kk : Byte} :
    w = encXkk f x kk ↔ fieldFamily w = f ∧ fieldX w = x ∧ fieldKk w = kk := by
  have := kk.isLt
  rw [← BitVec.toNat_inj, encXkk_toNat hf, fieldFamily_eq, ← Fin.val_inj, fieldX_val, ← BitVec.toNat_inj, fieldKk_toNat]
  omega

theorem eq_encXyn_iff (hf : f < 16) {n : Nat} :
    w = encXyn f x y n ↔ fieldFamily w = f ∧ fieldX w = x ∧ fieldY w = y ∧ fieldN w = n % 16 := by
  rw [← BitVec.toNat_inj, encXyn_toNat hf, fieldFamily_eq, ← Fin.val_inj, fieldX_val, ← Fin.val_inj, fieldY_val,
    fieldN_eq]
  omega

theorem eq_encXsel_iff (hf : f < 16) {sel : Nat} (hs : sel < 256) :
    w = encXsel f x sel ↔ fieldFamily w = f ∧ fieldX w = x ∧ (fieldKk w).toNat = sel := by
  rw [← BitVec.toNat_inj, encXsel_toNat hf hs, fieldFamily_eq, ← Fin.val_inj, fieldX_val, fieldKk_toNat]
  omega

end

/-! ### The ignored fields (30_encoding.md R100, R101) -/

theorem not_zero_and (w : Word) : ~~~(0x0000 : Word) &&& w = w := BitVec.allOnes_and

section
variable {m : Word} (w : Word)

theorem fieldFamily_and (h : m.extractLsb' 12 4 = 0xF#4) : fieldFamily (w &&& m) = fieldFamily w := by
  rw [fieldFamily, BitVec.extractLsb'_and, h, nibble_and_F, fieldFamily]

theorem fieldX_and (h : m.extractLsb' 8 4 = 0xF#4) : fieldX (w &&& m) = fieldX w := by
  simp only [fieldX, BitVec.extractLsb'_and, h, nibble_and_F]

theorem fieldY_and (h : m.extractLsb' 4 4 = 0xF#4) : fieldY (w &&& m) = fieldY w := by
  simp only [fieldY, BitVec.extractLsb'_and, h, nibble_and_F]

theorem fieldY_and_of_zero (h : m.extractLsb' 4 4 = 0x0#4) : fieldY (w &&& m) = 0 := by
  simp only [fieldY, BitVec.extractLsb'_and, h, nibble_and_0]
  rfl

theorem fieldN_and (h : m.extractLsb' 0 4 = 0xF#4) : fieldN (w &&& m) = fieldN w := by
  rw [fieldN, BitVec.extractLsb'_and, h, nibble_and_F, fieldN]

theorem fieldN_and_of_zero (h : m.extractLsb' 0 4 = 0x0#4) : fieldN (w &&& m) = 0 := by
  rw [fieldN, BitVec.extractLsb'_and, h, nibble_and_0]
  rfl

end

section
variable {f : Nat} (hf : f < 16) {w : Word} {x : Reg}
include hf

/-- SE Vx,Vy and SNE Vx,Vy: n is cleared. -/
theorem clearN_eq_encXyn_iff {y : Reg} : w &&& ~~~(0x000F : Word) = encXyn f x y 0 ↔
    fieldFamily w = f ∧ fieldX w = x ∧ fieldY w = y := by
  rw [eq_encXyn_iff hf, fieldFamily_and w rfl, fieldX_and w rfl, fieldY_and w rfl, fieldN_and_of_zero w rfl]
  simp

/-- SHR and SHL: y is cleared. -/
theorem clearY_eq_encXyn_iff {n : Nat} : w &&& ~~~(0x00F0 : Word) = encXyn f x 0 n ↔
    fieldFamily w = f ∧ fieldX w = x ∧ fieldN w = n % 16 := by
  rw [eq_encXyn_iff hf, fieldFamily_and w rfl, fieldX_and w rfl, fieldY_and_of_zero w rfl, fieldN_and w rfl]
  simp

theorem encXyn_clearN {y : Reg} : encXyn f x y 0 &&& ~~~(0x000F : Word) = encXyn f x y 0 := by
  obtain ⟨hfamily, hx, hy, -⟩ := (eq_encXyn_iff hf).mp (rfl : encXyn f x y 0 = _)
  exact (clearN_eq_encXyn_iff hf).mpr ⟨hfamily, hx, hy⟩

theorem encXyn_clearY {n : Nat} : encXyn f x 0 n &&& ~~~(0x00F0 : Word) = encXyn f x 0 n := by
  obtain ⟨hfamily, hx, -, hn⟩ := (eq_encXyn_iff hf).mp (rfl : encXyn f x 0 n = _)
  exact (clearY_eq_encXyn_iff hf).mpr ⟨hfamily, hx, hn⟩

end

/-! ### The fields that select an instruction (30_encoding.md R94 to R101) -/

/-- What the fields of a word must be for the word to be the instruction. -/
def Instr.SelectedBy (w : Word) : Instr → Prop
  | .cls => w = 0x00E0
  | .ret => w = 0x00EE
  | .jp addr => fieldFamily w = 0x1 ∧ fieldAddr w = addr
  | .call addr => fieldFamily w = 0x2 ∧ fieldAddr w = addr
  | .seImm x kk => fieldFamily w = 0x3 ∧ fieldX w = x ∧ fieldKk w = kk
  | .sneImm x kk => fieldFamily w = 0x4 ∧ fieldX w = x ∧ fieldKk w = kk
  | .seReg x y => fieldFamily w = 0x5 ∧ fieldX w = x ∧ fieldY w = y
  | .ldImm x kk => fieldFamily w = 0x6 ∧ fieldX w = x ∧ fieldKk w = kk
  | .addImm x kk => fieldFamily w = 0x7 ∧ fieldX w = x ∧ fieldKk w = kk
  | .ldReg x y => fieldFamily w = 0x8 ∧ fieldX w = x ∧ fieldY w = y ∧ fieldN w = 0x0
  | .orReg x y => fieldFamily w = 0x8 ∧ fieldX w = x ∧ fieldY w = y ∧ fieldN w = 0x1
  | .andReg x y => fieldFamily w = 0x8 ∧ fieldX w = x ∧ fieldY w = y ∧ fieldN w = 0x2
  | .xorReg x y => fieldFamily w = 0x8 ∧ fieldX w = x ∧ fieldY w = y ∧ fieldN w = 0x3
  | .addReg x y => fieldFamily w = 0x8 ∧ fieldX w = x ∧ fieldY w = y ∧ fieldN w = 0x4
  | .subReg x y => fieldFamily w = 0x8 ∧ fieldX w = x ∧ fieldY w = y ∧ fieldN w = 0x5
  | .shr x => fieldFamily w = 0x8 ∧ fieldX w = x ∧ fieldN w = 0x6
  | .subnReg x y => fieldFamily w = 0x8 ∧ fieldX w = x ∧ fieldY w = y ∧ fieldN w = 0x7
  | .shl x => fieldFamily w = 0x8 ∧ fieldX w = x ∧ fieldN w = 0xE
  | .sneReg x y => fieldFamily w = 0x9 ∧ fieldX w = x ∧ fieldY w = y
  | .ldI addr => fieldFamily w = 0xA ∧ fieldAddr w = addr
  | .jpV0 addr => fieldFamily w = 0xB ∧ fieldAddr w = addr
  | .rnd x kk => fieldFamily w = 0xC ∧ fieldX w = x ∧ fieldKk w = kk
  | .drw x y n => fieldFamily w = 0xD ∧ fieldX w = x ∧ fieldY w = y ∧ fieldN w = n
  | .skp x => fieldFamily w = 0xE ∧ fieldX w = x ∧ (fieldKk w).toNat = 0x9E
  | .sknp x => fieldFamily w = 0xE ∧ fieldX w = x ∧ (fieldKk w).toNat = 0xA1
  | .ldVxDT x => fieldFamily w = 0xF ∧ fieldX w = x ∧ (fieldKk w).toNat = 0x07
  | .ldVxK x => fieldFamily w = 0xF ∧ fieldX w = x ∧ (fieldKk w).toNat = 0x0A
  | .ldDTVx x => fieldFamily w = 0xF ∧ fieldX w = x ∧ (fieldKk w).toNat = 0x15
  | .ldSTVx x => fieldFamily w = 0xF ∧ fieldX w = x ∧ (fieldKk w).toNat = 0x18
  | .addI x => fieldFamily w = 0xF ∧ fieldX w = x ∧ (fieldKk w).toNat = 0x1E
  | .ldF x => fieldFamily w = 0xF ∧ fieldX w = x ∧ (fieldKk w).toNat = 0x29
  | .ldB x => fieldFamily w = 0xF ∧ fieldX w = x ∧ (fieldKk w).toNat = 0x33
  | .stRegs x => fieldFamily w = 0xF ∧ fieldX w = x ∧ (fieldKk w).toNat = 0x55
  | .ldRegs x => fieldFamily w = 0xF ∧ fieldX w = x ∧ (fieldKk w).toNat = 0x65

section
variable {w : Word} {i : Instr}

theorem selectedBy_of_decodeFamily0 (h : decodeFamily0 w = some i) : i.SelectedBy w := by
  unfold decodeFamily0 at h
  split at h <;> cases h <;> exact BitVec.eq_of_toNat_eq ‹_›

theorem selectedBy_of_decodeFamily8 (hf : fieldFamily w = 0x8) (h : decodeFamily8 w = some i) : i.SelectedBy w := by
  unfold decodeFamily8 at h
  split at h <;> cases h <;> simp [Instr.SelectedBy, *]

theorem selectedBy_of_decodeFamilyE (hf : fieldFamily w = 0xE) (h : decodeFamilyE w = some i) : i.SelectedBy w := by
  unfold decodeFamilyE at h
  split at h <;> cases h <;> exact ⟨hf, rfl, ‹_›⟩

theorem selectedBy_of_decodeFamilyF (hf : fieldFamily w = 0xF) (h : decodeFamilyF w = some i) : i.SelectedBy w := by
  unfold decodeFamilyF at h
  split at h <;> cases h <;> exact ⟨hf, rfl, ‹_›⟩

theorem selectedBy_of_decode (h : decode w = some i) : i.SelectedBy w := by
  unfold decode at h
  split at h
  case h_1 => exact selectedBy_of_decodeFamily0 h
  case h_9 hf => exact selectedBy_of_decodeFamily8 hf h
  case h_15 hf => exact selectedBy_of_decodeFamilyE hf h
  case h_16 hf => exact selectedBy_of_decodeFamilyF hf h
  case h_17 => cases h
  all_goals
    cases h
    simp [Instr.SelectedBy, *]

theorem decode_of_selectedBy (h : i.SelectedBy w) : decode w = some i := by
  cases i with
  | cls | ret =>
    cases h
    rfl
  | ldReg | orReg | andReg | xorReg | addReg | subReg | shr | subnReg | shl =>
    simp_all [Instr.SelectedBy, decode, decodeFamily8]
  | skp | sknp => simp_all [Instr.SelectedBy, decode, decodeFamilyE]
  | ldVxDT | ldVxK | ldDTVx | ldSTVx | addI | ldF | ldB | stRegs | ldRegs =>
    simp_all [Instr.SelectedBy, decode, decodeFamilyF]
  | _ => simp_all [Instr.SelectedBy, decode]

theorem decode_eq_some_iff : decode w = some i ↔ i.SelectedBy w := ⟨selectedBy_of_decode, decode_of_selectedBy⟩

/-- Where no bit is ignored, being the canonical word up to the ignored bits is being it. -/
theorem clearNone_eq_encode_iff (hi : i.ignored = 0x0000) : w &&& ~~~i.ignored = encode i ↔ w = encode i := by
  rw [hi, BitVec.and_comm, not_zero_and]

/-- The same fields make the canonical word, up to the bits that the instruction ignores. -/
theorem canonical_iff_selectedBy : (i.wf = true ∧ w &&& ~~~i.ignored = encode i) ↔ i.SelectedBy w := by
  cases i with
  | drw x y n =>
    rw [clearNone_eq_encode_iff rfl, encode, eq_encXyn_iff (by decide), Instr.wf, decide_eq_true_iff, Instr.SelectedBy]
    constructor
    · rintro ⟨hn, hf, hx, hy, hN⟩
      exact ⟨hf, hx, hy, hN.trans (Nat.mod_eq_of_lt (Nat.lt_succ_of_le hn))⟩
    · rintro ⟨hf, hx, hy, rfl⟩
      exact ⟨fieldN_le w, hf, hx, hy, (Nat.mod_eq_of_lt (Nat.lt_succ_of_le (fieldN_le w))).symm⟩
  | seReg | sneReg => exact (and_iff_right rfl).trans (clearN_eq_encXyn_iff (by decide))
  | shr | shl => exact (and_iff_right rfl).trans (clearY_eq_encXyn_iff (by decide))
  | cls | ret => exact (and_iff_right rfl).trans (clearNone_eq_encode_iff rfl)
  | jp | call | ldI | jpV0 =>
    exact (and_iff_right rfl).trans ((clearNone_eq_encode_iff rfl).trans (eq_encAddr_iff (by decide)))
  | seImm | sneImm | ldImm | addImm | rnd =>
    exact (and_iff_right rfl).trans ((clearNone_eq_encode_iff rfl).trans (eq_encXkk_iff (by decide)))
  | ldReg | orReg | andReg | xorReg | addReg | subReg | subnReg =>
    exact (and_iff_right rfl).trans ((clearNone_eq_encode_iff rfl).trans (eq_encXyn_iff (by decide)))
  | _ => exact (and_iff_right rfl).trans ((clearNone_eq_encode_iff rfl).trans (eq_encXsel_iff (by decide) (by decide)))

end

/-- Settles O3: the decoder and the canonical word select an instruction by the same fields. -/
theorem decodesExactlyUpToIgnoredBits : Obligations.DecodesExactlyUpToIgnoredBits :=
  fun _ _ => decode_eq_some_iff.trans canonical_iff_selectedBy.symm

/-! ### The round trip (30_encoding.md R90, R102, R103) -/

/-- The canonical word has 0 in the fields that its instruction ignores. -/
theorem encode_and_not_ignored (i : Instr) : encode i &&& ~~~i.ignored = encode i := by
  cases i with
  | seReg | sneReg => exact encXyn_clearN (by decide)
  | shr | shl => exact encXyn_clearY (by decide)
  | _ => exact (clearNone_eq_encode_iff rfl).mpr rfl

theorem decode_encode {i : Instr} (h : i.wf = true) : decode (encode i) = some i :=
  (decodesExactlyUpToIgnoredBits _ i).mpr ⟨h, encode_and_not_ignored i⟩

/-- The decoder on bytes reads the word the two bytes came from. -/
theorem decodeBytes_bytesOfWord {w : Word} {i : Instr} (h : decode w = some i) (rest : List Byte) :
    decodeBytes (bytesOfWord w ++ rest) = .ok (i, rest) := by
  rw [bytesOfWord, List.cons_append, List.cons_append, List.nil_append, decodeBytes_two,
    wordOfBytes_highByte_lowByte, h]

/-- Settles O2: the canonical word is one of the words that decode to its instruction (O3). -/
theorem decodeOfEncode : Obligations.DecodeOfEncode :=
  fun _ rest h => ⟨decode_encode h, decodeBytes_bytesOfWord (decode_encode h) rest⟩

/-! ### The illegal words (30_encoding.md R106, 60_exceptions.md R251) -/

/-- The words of R106, as numbers. -/
def IllegalWord (w : Word) : Prop :=
  (w.toNat < 0x1000 ∧ w.toNat ≠ 0x00E0 ∧ w.toNat ≠ 0x00EE) ∨
  (w.toNat / 0x1000 = 0x8 ∧ ((0x8 ≤ w.toNat % 16 ∧ w.toNat % 16 ≤ 0xD) ∨ w.toNat % 16 = 0xF)) ∨
  (w.toNat / 0x1000 = 0xE ∧ w.toNat % 256 ≠ 0x9E ∧ w.toNat % 256 ≠ 0xA1) ∨
  (w.toNat / 0x1000 = 0xF ∧ w.toNat % 256 ∉ [0x07, 0x0A, 0x15, 0x18, 0x1E, 0x29, 0x33, 0x55, 0x65])

section
variable (w : Word)

theorem decodeFamily0_eq_none_iff : decodeFamily0 w = none ↔ w.toNat ≠ 0x00E0 ∧ w.toNat ≠ 0x00EE := by
  unfold decodeFamily0
  split <;> simp_all

theorem decodeFamily8_eq_none_iff : decodeFamily8 w = none ↔
    (0x8 ≤ w.toNat % 16 ∧ w.toNat % 16 ≤ 0xD) ∨ w.toNat % 16 = 0xF := by
  rw [← fieldN_eq]
  have := fieldN_le w
  unfold decodeFamily8
  split
  case h_10 =>
    simp only [imp_false] at *
    simp only [true_iff]
    omega
  all_goals simp [*]

theorem decodeFamilyE_eq_none_iff : decodeFamilyE w = none ↔ w.toNat % 256 ≠ 0x9E ∧ w.toNat % 256 ≠ 0xA1 := by
  rw [← fieldKk_toNat]
  unfold decodeFamilyE
  split <;> simp_all

theorem decodeFamilyF_eq_none_iff : decodeFamilyF w = none ↔
    w.toNat % 256 ∉ [0x07, 0x0A, 0x15, 0x18, 0x1E, 0x29, 0x33, 0x55, 0x65] := by
  rw [← fieldKk_toNat]
  unfold decodeFamilyF
  split <;> simp_all

end

/-- The twelve other families select an instruction by themselves (30_encoding.md R95). -/
theorem decode_ne_none_of_family {w : Word} (h0 : ¬ w.toNat < 0x1000) (h8 : w.toNat / 0x1000 ≠ 0x8)
    (hE : w.toNat / 0x1000 ≠ 0xE) (hF : w.toNat / 0x1000 ≠ 0xF) : decode w ≠ none := by
  have hw := w.isLt
  have hfamily := fieldFamily_eq w
  unfold decode
  split
  case h_1 | h_9 | h_15 | h_16 => omega
  case h_17 =>
    simp only [imp_false] at *
    omega
  all_goals exact Option.some_ne_none _

theorem decode_eq_none_iff (w : Word) : decode w = none ↔ IllegalWord w := by
  unfold IllegalWord
  by_cases h0 : w.toNat < 0x1000
  · rw [decode_family0 (Nat.div_eq_of_lt h0), decodeFamily0_eq_none_iff]
    omega
  by_cases h8 : w.toNat / 0x1000 = 0x8
  · rw [decode_family8 h8, decodeFamily8_eq_none_iff]
    simp [h0, h8]
  by_cases hE : w.toNat / 0x1000 = 0xE
  · rw [decode_familyE hE, decodeFamilyE_eq_none_iff]
    simp [h0, hE]
  by_cases hF : w.toNat / 0x1000 = 0xF
  · rw [decode_familyF hF, decodeFamilyF_eq_none_iff]
    simp [h0, hF]
  · simp [h0, h8, hE, hF, decode_ne_none_of_family h0 h8 hE hF]

/-- Settles O5: the illegal words family by family, and the step that fetches one. -/
theorem illegalWordsFault : Obligations.IllegalWordsFault :=
  ⟨decode_eq_none_iff, fun _ _ hw hd => ⟨step_of_illegal hw hd, cycle_of_fault (step_of_illegal hw hd)⟩⟩

/-! ### The opcode map (30_encoding.md R102) -/

open Laws.RowOfEncoding in
/-- The canonical word of every instruction is accepted by the instruction's row. -/
theorem rowOfEncoding : ∀ i : Instr, Laws.RowOfEncoding.Statement i
  | .cls => cls
  | .ret => ret
  | .jp addr => jp addr
  | .call addr => call addr
  | .seImm x kk => seImm x kk
  | .sneImm x kk => sneImm x kk
  | .seReg x y => seReg x y
  | .ldImm x kk => ldImm x kk
  | .addImm x kk => addImm x kk
  | .ldReg x y => ldReg x y
  | .orReg x y => orReg x y
  | .andReg x y => andReg x y
  | .xorReg x y => xorReg x y
  | .addReg x y => addReg x y
  | .subReg x y => subReg x y
  | .shr x => shr x
  | .subnReg x y => subnReg x y
  | .shl x => shl x
  | .sneReg x y => sneReg x y
  | .ldI addr => ldI addr
  | .jpV0 addr => jpV0 addr
  | .rnd x kk => rnd x kk
  | .drw x y n => drw x y n
  | .skp x => skp x
  | .sknp x => sknp x
  | .ldVxDT x => ldVxDT x
  | .ldVxK x => ldVxK x
  | .ldDTVx x => ldDTVx x
  | .ldSTVx x => ldSTVx x
  | .addI x => addI x
  | .ldF x => ldF x
  | .ldB x => ldB x
  | .stRegs x => stRegs x
  | .ldRegs x => ldRegs x

/-- Any two different rows ask for different values of a bit that both masks look at. -/
theorem opcodeMap_rows_differ :
    ∀ r ∈ opcodeMap, ∀ q ∈ opcodeMap, r.value &&& q.mask = q.value &&& r.mask → r = q := by decide

theorem opcodeMap_mnemonics_nodup : (opcodeMap.map OpcodeRow.mnemonic).Nodup := by decide

/-- The rows by what they look at: the whole word, the family, or the family and a selector. -/
theorem opcodeMap_rows : ∀ r ∈ opcodeMap,
    (r.mask = 0xFFFF ∧ (r.value = 0x00E0 ∨ r.value = 0x00EE)) ∨
    (r.mask = 0xF000 ∧ ∃ f ∈ [0x1, 0x2, 0x3, 0x4, 0x5, 0x6, 0x7, 0x9, 0xA, 0xB, 0xC, 0xD],
      r.value = BitVec.ofNat 16 (f * 0x1000)) ∨
    (r.mask = 0xF00F ∧ ∃ n ∈ [0x0, 0x1, 0x2, 0x3, 0x4, 0x5, 0x6, 0x7, 0xE],
      r.value = BitVec.ofNat 16 (0x8 * 0x1000 + n)) ∨
    (r.mask = 0xF0FF ∧ ∃ b ∈ [0x9E, 0xA1], r.value = BitVec.ofNat 16 (0xE * 0x1000 + b)) ∨
    (r.mask = 0xF0FF ∧ ∃ b ∈ [0x07, 0x0A, 0x15, 0x18, 0x1E, 0x29, 0x33, 0x55, 0x65],
      r.value = BitVec.ofNat 16 (0xF * 0x1000 + b)) := by decide

section
variable {w : Word} {r q : OpcodeRow} {i : Instr}

theorem row_eq_of_accepts (hr : r ∈ opcodeMap) (hq : q ∈ opcodeMap) (har : r.accepts w = true)
    (haq : q.accepts w = true) : r = q := by
  rw [OpcodeRow.accepts, beq_iff_eq] at har haq
  refine opcodeMap_rows_differ r hr q hq ?_
  rw [← har, ← haq, BitVec.and_assoc, BitVec.and_assoc, BitVec.and_comm r.mask]

theorem row_eq_of_mnemonic (hr : r ∈ opcodeMap) (hq : q ∈ opcodeMap) (h : r.mnemonic = q.mnemonic) : r = q :=
  List.inj_on_of_nodup_map opcodeMap_mnemonics_nodup hr hq h

/-- A row looks at no bit that its instruction ignores. -/
theorem not_ignored_and_mask (hr : r ∈ opcodeMap) (h : r.mnemonic = i.mnemonic) : ~~~i.ignored &&& r.mask = r.mask := by
  cases i with
  | seReg | sneReg | shr | shl =>
    revert r
    simp only [Instr.mnemonic, Instr.ignored]
    decide
  | _ => exact not_zero_and _

/-- The row of an instruction accepts every word that decodes to it, for it accepts the canonical one. -/
theorem accepts_of_decode (h : decode w = some i) : ∃ r ∈ opcodeMap, r.mnemonic = i.mnemonic ∧ r.accepts w = true := by
  obtain ⟨r, hr, hm, ha⟩ := rowOfEncoding i
  obtain ⟨-, hw⟩ := (decodesExactlyUpToIgnoredBits w i).mp h
  refine ⟨r, hr, hm, ?_⟩
  rwa [← hw, OpcodeRow.accepts, BitVec.and_assoc, not_ignored_and_mask hr hm] at ha

/-- A word that a row accepts is none of the illegal ones. -/
theorem decode_ne_none_of_accepts (hr : r ∈ opcodeMap) (ha : r.accepts w = true) : decode w ≠ none := by
  rw [Ne, decode_eq_none_iff, IllegalWord]
  have hrow := opcodeMap_rows r hr
  simp only [List.mem_cons, List.not_mem_nil, or_false] at hrow ⊢
  obtain ⟨m, v, k⟩ := r
  rcases hrow with ⟨rfl, rfl | rfl⟩ | ⟨rfl, f, hf, rfl⟩ | ⟨rfl, n, hn, rfl⟩ | ⟨rfl, b, hb, rfl⟩ | ⟨rfl, b, hb, rfl⟩
  iterate 2
    cases (accepts_FFFF m _ w).mp ha
    decide
  · have := (accepts_F000 m f (by omega) w).mp ha
    omega
  · have := (accepts_F00F m 0x8 n (by decide) (by omega) w).mp ha
    omega
  · have := (accepts_F0FF m 0xE b (by decide) (by omega) w).mp ha
    omega
  · have := (accepts_F0FF m 0xF b (by decide) (by omega) w).mp ha
    omega

end

/-- Settles O4: an accepted word decodes to some instruction, whose row accepts it too, and no other row does. -/
theorem opcodeMapIsTheDecoder : Obligations.OpcodeMapIsTheDecoder := by
  refine ⟨fun w r hr => ⟨fun ha => ?_, ?_⟩, fun w r q => row_eq_of_accepts⟩
  · obtain ⟨i, hi⟩ := Option.ne_none_iff_exists'.mp (decode_ne_none_of_accepts hr ha)
    obtain ⟨q, hq, hm, hqa⟩ := accepts_of_decode hi
    cases row_eq_of_accepts hr hq ha hqa
    exact ⟨i, hi, hm.symm⟩
  · rintro ⟨i, hi, hm⟩
    obtain ⟨q, hq, hqm, hqa⟩ := accepts_of_decode hi
    cases row_eq_of_mnemonic hr hq (hm.symm.trans hqm.symm)
    exact hqa

/-! ### Written words (30_encoding.md R102) -/

/-- Settles O1: the decoder runs on each word. -/
theorem writtenWordsDecode : Obligations.WrittenWordsDecode := by
  refine ⟨?_, ?_, ?_, ?_, ?_, ?_, ?_, ?_, ?_, ?_, ?_, ?_, ?_, ?_, ?_, ?_⟩ <;> decide

end Sys2Proof
end

section
/-! The claims about the cycle step: what it runs, how it ends, how the timers count, what reads the inputs, and the
jump to its own address. -/

namespace Sys2Proof.Machine

/-! ### A step by what it fetches (40_cycle.md R120, R127) -/

/-- A completed handler completes the step, after the timer step. -/
theorem step_of_completes {s t : State} {i : Instr} (hi : Fetches s i) (h : exec i s = .next t) :
    step s = .next (timerStep t) := step_next.mpr ⟨i, t, hi, h, rfl⟩

/-- A handler's fault is the step's fault. -/
theorem step_of_faults {s : State} {i : Instr} {f : Fault} (hi : Fetches s i) (h : exec i s = .fault f) :
    step s = .fault f := step_fault.mpr (.inr (.inr ⟨i, hi, h⟩))

/-- A step that completes is reported with its next state. -/
theorem cycle_of_next {s t : State} (h : step s = .next t) : cycle s = (t, .ok) := by
  simp only [cycle, h]

/-- Settles O7: the bytes at `pc` are the word fetched there, and what follows the handler is the timer step. -/
theorem stepRunsTheDecodedInstruction : Obligations.StepRunsTheDecodedInstruction := by
  intro s
  refine ⟨fun _ => step_of_fetch_error, fun _ => step_of_illegal, ?_, fun _ => cycle_of_next, fun _ => cycle_of_fault⟩
  intro i hpc hd
  have hi : Fetches s i := ⟨_, fetch_ok.mpr ⟨hpc, rfl⟩, hd⟩
  rw [step_of_fetches hi]
  cases exec i s with
  | next | fault | refused => rfl

theorem keySkip_ne_refused {pressed : Bool} {x : Reg} {s : State} {r : Refusal} : keySkip pressed x s ≠ .refused r := by
  unfold keySkip raise
  split <;> simp

/-- Every instruction has a meaning in the model. -/
theorem exec_ne_refused (i : Instr) (s : State) (r : Refusal) : exec i s ≠ .refused r := by
  cases i with
  | ret =>
    show (if s.SP.val = 0 then _ else _) ≠ _
    split <;> simp [raise]
  | call =>
    show (if h : s.SP.val < Config.stackDepth then _ else _) ≠ _
    split <;> simp [raise]
  | addI x =>
    show (if s.indexSum x > 0xFFFF then _ else _) ≠ _
    split <;> simp [raise]
  | skp | sknp => exact keySkip_ne_refused
  | ldVxK x => rcases execLdVxK_cases x s with ⟨-, e⟩ | ⟨k, -, e⟩ <;> exact fun h => nomatch e.symm.trans h
  | drw | ldB | stRegs | ldRegs => exact withAccess_refused
  | _ => exact fun h => nomatch h

/-- Settles O9: the step ends at the fetch, at decode or with the handler, and no handler refuses. -/
theorem stepCompletesOrFaults : Obligations.StepCompletesOrFaults := by
  intro s
  have faults {f : Fault} (hf : step s = .fault f) : ∃ f, step s = .fault f ∧ cycle s = (s, .fault f) :=
    ⟨f, hf, cycle_of_fault hf⟩
  rcases fetch_cases s with ⟨f, hf⟩ | ⟨w, hw, hd⟩ | ⟨i, hi⟩
  · exact .inr (faults (step_of_fetch_error hf))
  · exact .inr (faults (step_of_illegal hw hd))
  · cases he : exec i s with
    | next t =>
      have hs := step_of_completes hi he
      exact .inl ⟨i, t, timerStep t, hi, he, rfl, hs, cycle_of_next hs⟩
    | fault f => exact .inr (faults (step_of_faults hi he))
    | refused r => exact absurd he (exec_ne_refused i s r)

/-! ### The timers (40_cycle.md R125, R128) -/

/-- The frame of a state that differs in the timers only. -/
theorem onlyRegsIn_of_timers {s t : State} (h : t = { s with DT := t.DT, ST := t.ST }) :
    OnlyRegsIn [] { s with DT := t.DT, ST := t.ST } t := by
  rw [← h]
  exact ⟨onlyRegs_of rfl, fun _ _ => rfl⟩

/-- Settles O8: a completed step is the timer step of the handler's state, which counts unless that is waiting. -/
theorem timerStepCountsDown : Obligations.TimerStepCountsDown := by
  intro s i hi
  constructor
  · intro t ht
    refine ⟨timerStep t, step_of_completes hi ht, fun hw => ⟨timerStep_DT_toNat t hw, timerStep_ST_toNat t hw⟩, ?_,
      timerStep_pc t, onlyRegsIn_of_timers (timerStep_eq t)⟩
    intro hw
    rw [timerStep_of_waiting hw]
    exact ⟨rfl, rfl⟩
  · intro f hf
    exact cycle_of_fault (step_of_faults hi hf)

/-- Settles O48: the handler writes the timer or reads it, then both timers count. -/
theorem timerWritesCountInTheirOwnCycle : Obligations.TimerWritesCountInTheirOwnCycle := by
  intro s x hw
  refine ⟨fun hi => ?_, fun hi => ?_, fun hi => ?_⟩
  · exact ⟨_, step_of_completes hi rfl, timerStep_DT_toNat (s.setDT (s.reg x)).advance hw,
      timerStep_ST_toNat (s.setDT (s.reg x)).advance hw⟩
  · exact ⟨_, step_of_completes hi rfl, timerStep_ST_toNat (s.setST (s.reg x)).advance hw,
      timerStep_DT_toNat (s.setST (s.reg x)).advance hw⟩
  · exact ⟨_, step_of_completes hi rfl, (timerStep_reg _ x).trans (s.setReg_reg_same x s.DT),
      timerStep_DT_toNat (s.setReg x s.DT).advance hw⟩

/-! ### The inputs (40_cycle.md R129)

The keys and the position of the random input are replaced, each or not; every operation that does not read a replaced
one commutes with that, so the handlers do. -/

/-- The state with other keys and at another position of the random input, where such are given. -/
def State.withInputs (s : State) (keys : Option (Vector Bool 16)) (position : Option Nat) : State :=
  { s with K := keys.getD s.K, rndCount := position.getD s.rndCount }

/-- The same outcome with those inputs. -/
def resultWithInputs (keys : Option (Vector Bool 16)) (position : Option Nat) : Result → Result
  | .next s => .next (s.withInputs keys position)
  | .fault f => .fault f
  | .refused r => .refused r

section
variable (keys : Option (Vector Bool 16)) (position : Option Nat) (s : State)

theorem skipIf_withInputs (c : Bool) : (s.withInputs keys position).skipIf c = (s.skipIf c).withInputs keys position := by
  cases c <;> rfl

theorem drawRow_withInputs (vx : Byte) (row : Row) (b : Byte) :
    (s.withInputs keys position).drawRow vx row b = (s.drawRow vx row b).withInputs keys position :=
  List.foldl_hom (State.withInputs · keys position) (fun _ _ => rfl)

theorem drawRows_withInputs (vx vy : Byte) (n : Nat) :
    (s.withInputs keys position).drawRows vx vy n = (s.drawRows vx vy n).withInputs keys position := by
  induction n with
  | zero => rfl
  | succ n ih =>
    rw [State.drawRows, ih]
    exact drawRow_withInputs keys position _ _ _ _

theorem storeRegs_withInputs (x : Reg) :
    (s.withInputs keys position).storeRegs x = (s.storeRegs x).withInputs keys position :=
  List.foldl_hom (State.withInputs · keys position) (fun _ _ => rfl)

theorem loadRegs_withInputs (x : Reg) :
    (s.withInputs keys position).loadRegs x = (s.loadRegs x).withInputs keys position :=
  List.foldl_hom (State.withInputs · keys position) (fun _ _ => rfl)

theorem withAccess_withInputs {a n : Nat} {t : State} (h : t = s.withInputs keys position) :
    withAccess a n t = resultWithInputs keys position (withAccess a n s) := by
  unfold withAccess
  split
  · exact congrArg Host.Outcome.next h
  · rfl

theorem keySkip_withInputs (pressed : Bool) (x : Reg) :
    keySkip pressed x (s.withInputs none position) = resultWithInputs none position (keySkip pressed x s) := by
  have hk : (s.withInputs none position).keyOf x = s.keyOf x := rfl
  unfold keySkip
  rw [hk]
  split
  · exact congrArg Host.Outcome.next (skipIf_withInputs none position s _)
  · rfl

variable {keys position}

/-- A handler that does not read a replaced input has the same outcome with it. -/
theorem exec_withInputs (i : Instr)
    (hkeys : keys = none ∨ ((∀ x, i ≠ .skp x) ∧ (∀ x, i ≠ .sknp x) ∧ ∀ x, i ≠ .ldVxK x))
    (hposition : position = none ∨ ∀ x kk, i ≠ .rnd x kk) :
    exec i (s.withInputs keys position) = resultWithInputs keys position (exec i s) := by
  cases i with
  | skp x =>
    obtain rfl := hkeys.resolve_right fun ⟨h, _, _⟩ => h x rfl
    exact keySkip_withInputs position s true x
  | sknp x =>
    obtain rfl := hkeys.resolve_right fun ⟨_, h, _⟩ => h x rfl
    exact keySkip_withInputs position s false x
  | ldVxK x =>
    obtain rfl := hkeys.resolve_right fun ⟨_, _, h⟩ => h x rfl
    have hk : (s.withInputs none position).firstKey = s.firstKey := rfl
    simp only [exec, execLdVxK, hk]
    split <;> rfl
  | rnd x kk =>
    obtain rfl := hposition.resolve_right fun h => h x kk rfl
    rfl
  | seImm | sneImm | seReg | sneReg => exact congrArg Host.Outcome.next (skipIf_withInputs keys position s _)
  | ret =>
    show (if s.SP.val = 0 then _ else _) = resultWithInputs keys position (if s.SP.val = 0 then _ else _)
    split <;> rfl
  | call =>
    show (if h : s.SP.val < Config.stackDepth then _ else _) =
      resultWithInputs keys position (if h : s.SP.val < Config.stackDepth then _ else _)
    split <;> rfl
  | addI x =>
    show (if s.indexSum x > 0xFFFF then _ else _) =
      resultWithInputs keys position (if s.indexSum x > 0xFFFF then _ else _)
    split <;> rfl
  | drw x y n =>
    exact withAccess_withInputs keys position _
      (congrArg (fun t => t.markRedraw.advance) (drawRows_withInputs keys position s _ _ n))
  | ldB => exact withAccess_withInputs keys position _ rfl
  | stRegs x =>
    exact withAccess_withInputs keys position _ (congrArg State.advance (storeRegs_withInputs keys position s x))
  | ldRegs x =>
    exact withAccess_withInputs keys position _ (congrArg State.advance (loadRegs_withInputs keys position s x))
  | _ => rfl

end

/-- Settles O26: the first half replaces the keys alone, the second the position of the random input alone. -/
theorem inputsAreReadOnlyByTheListed : Obligations.InputsAreReadOnlyByTheListed := by
  constructor
  · intro i s k hskp hsknp hldVxK
    have same : exec i { s with K := k } = resultWithInputs (some k) none (exec i s) :=
      exec_withInputs (keys := some k) s i (.inr ⟨hskp, hsknp, hldVxK⟩) (.inl rfl)
    exact ⟨fun t ht => same.trans (congrArg _ ht), fun f hf => same.trans (congrArg _ hf)⟩
  · intro i s n hrnd
    have same : exec i { s with rndCount := n } = resultWithInputs none (some n) (exec i s) :=
      exec_withInputs (position := some n) s i (.inl rfl) (.inr hrnd)
    exact ⟨fun t ht => same.trans (congrArg _ ht), fun f hf => same.trans (congrArg _ hf)⟩

/-! ### The jump to its own address (40_cycle.md R130) -/

/-- A step of a JP to its own address is the timer step. -/
theorem step_selfJump {s : State} {addr : Addr} (hi : Fetches s (.jp addr)) (ha : addrWord addr = s.pc) :
    step s = .next (timerStep s) := by
  have hjp : exec (.jp addr) s = .next s := congrArg (fun a => Host.Outcome.next (s.setPc a)) ha
  exact step_of_completes hi hjp

/-- Timers that are 0 stay 0, so the timer step is without effect. -/
theorem timerStep_of_zero {s : State} (hDT : s.DT = 0) (hST : s.ST = 0) : timerStep s = s := by
  cases hw : s.waiting with
  | true => exact timerStep_of_waiting hw
  | false =>
    obtain ⟨⟩ := s
    subst hDT hST
    exact timerStep_of_running hw

/-- Settles O58: the step is the timer step, and both timers are at their floor. -/
theorem idleIsAFixedPoint : Obligations.IdleIsAFixedPoint := by
  rintro s ⟨w, addr, hf, hd, ha, hDT, hST⟩
  rw [step_selfJump ⟨w, hf, hd⟩ ha, timerStep_of_zero hDT hST]

/-- A run of k steps in a JP to its own address counts the timers down by k and changes nothing else. -/
theorem run_selfJump {s : State} {addr : Addr} (hw : s.waiting = false) (hi : Fetches s (.jp addr))
    (ha : addrWord addr = s.pc) (k : Nat) :
    ∃ t, Host.Core.run Sys2Proof.core k s = .next t ∧ t = { s with DT := t.DT, ST := t.ST } ∧
      t.DT.toNat = s.DT.toNat - k ∧ t.ST.toNat = s.ST.toNat - k := by
  induction k generalizing s with
  | zero => exact ⟨s, rfl, rfl, rfl, rfl⟩
  | succ k ih =>
    have hi' : Fetches (timerStep s) (.jp addr) := fetches_congr (by simp) (by simp) hi
    obtain ⟨t, hrun, ht, hDT, hST⟩ := ih (by simpa using hw) hi' (by simpa using ha)
    rw [timerStep_DT_toNat s hw] at hDT
    rw [timerStep_ST_toNat s hw] at hST
    rw [timerStep_eq s] at ht
    exact ⟨t, (run_step (step_selfJump hi ha) k).trans hrun, ht, by omega, by omega⟩

/-- Settles O59, by induction on the number of steps. -/
theorem selfJumpCountsTheTimersDown : Obligations.SelfJumpCountsTheTimersDown := by
  intro s addr k hw hi ha
  have hpc : addrWord addr = s.pc := BitVec.eq_of_toNat_eq ((addrWord_toNat addr).trans ha)
  obtain ⟨t, hrun, ht, hDT, hST⟩ := run_selfJump hw hi hpc k
  exact ⟨t, hrun, hDT, hST, (congrArg State.pc ht :), onlyRegsIn_of_timers ht⟩

/-! ### Placing an instruction (70_reset_and_hazards.md section 2) -/

/-- The word of a table row of 16 bits is the number itself. -/
theorem tableWord_sixteen (w : Nat) : tableWord 16 w = BitVec.ofNat 16 w := by
  apply BitVec.eq_of_toNat_eq
  simp [tableWord]

/-- Where a fetch can read, placing a word writes its two bytes. -/
theorem storeAtPc_of_le {s : State} (hpc : s.pc.toNat ≤ 0x0FFE) (w : Word) :
    s.storeAtPc w = { s with mem := s.mem.writeBytes s.pc.toNat (bytesOfWord w) } :=
  if_pos ((accessOk_iff _ _).mpr (.inr (by omega)))

/-- A placed word is the word fetched. -/
theorem fetch_storeAtPc {s : State} (hpc : s.pc.toNat ≤ 0x0FFE) (w : Word) : (s.storeAtPc w).fetch = .ok w := by
  rw [storeAtPc_of_le hpc, fetch_ok]
  refine ⟨hpc, ?_⟩
  simp [bytesOfWord, Memory.read_writeBytes, wordOfBytes_highByte_lowByte]

/-- Placing a word changes no byte but the two at `pc`. -/
theorem sameMemOutside_storeAtPc {s : State} (hpc : s.pc.toNat ≤ 0x0FFE) (w : Word) :
    SameMemOutside s.pc.toNat 2 s (s.storeAtPc w) := by
  intro a ha
  rw [storeAtPc_of_le hpc]
  show (s.mem.writeBytes _ _).read a = _
  rw [Memory.read_writeBytes]
  split
  · have beyond : (bytesOfWord w).length ≤ a - s.pc.toNat := by
      show 2 ≤ _
      omega
    exact List.getD_eq_default _ _ beyond
  · rfl

/-- Settles O60: the two bytes of the word are written at `pc`, high byte first, as the fetch reads them. -/
theorem placedWordIsFetched : Obligations.PlacedWordIsFetched := by
  intro s w hpc
  unfold State.withFetchWord
  rw [tableWord_sixteen]
  refine ⟨fetch_storeAtPc hpc _, sameMemOutside_storeAtPc hpc _, ?_⟩
  rw [storeAtPc_of_le hpc]

end Sys2Proof.Machine
end

section
/-! The claims about control transfer: the words of the two formats that skips use, the frame of a jump, the stack as
CALL and RET use it, and one skip lemma for all six skip instructions. -/

namespace Sys2Proof

/-! ### The words of formats XKK and XYN, as the claims write them (30_encoding.md R92) -/

theorem encXkk_eq_ofNat (f : Nat) (x : Reg) (kk : Byte) :
    encXkk f x kk = BitVec.ofNat 16 (f * 0x1000 + 0x100 * x.val + kk.toNat) := by
  rw [encXkk, Nat.mul_comm x.val]

theorem encXyn_eq_ofNat (f : Nat) (x y : Reg) {n : Nat} (hn : n ≤ 15) :
    encXyn f x y n = BitVec.ofNat 16 (f * 0x1000 + 0x100 * x.val + 0x10 * y.val + n) := by
  rw [encXyn, Nat.mul_comm x.val, Nat.mul_comm y.val, Nat.mod_eq_of_lt (Nat.lt_succ_of_le hn)]

/-- The fields that select an instruction of format XYN whose low nibble is ignored. -/
theorem fields_xynWord {f : Nat} (hf : f < 16) (x y : Reg) {n : Nat} (hn : n ≤ 15) {w : Word}
    (hw : w = BitVec.ofNat 16 (f * 0x1000 + 0x100 * x.val + 0x10 * y.val + n)) :
    fieldFamily w = f ∧ fieldX w = x ∧ fieldY w = y := by
  obtain ⟨hfamily, hx, hy, -⟩ := (eq_encXyn_iff hf).mp (hw.trans (encXyn_eq_ofNat f x y hn).symm)
  exact ⟨hfamily, hx, hy⟩

end Sys2Proof

namespace Sys2Proof.Machine

/-! ### The jumps (41_control_transfer.md R141, R148) -/

theorem onlyRegsIn_setPc (s : State) (a : Word) : OnlyRegsIn [] s (s.setPc a) := ⟨onlyRegs_of rfl, fun _ _ => rfl⟩

/-- Settles O36: both jumps set `pc` alone, and neither target wraps. -/
theorem jumps : Obligations.Jumps := fun s addr =>
  ⟨decode_encode (i := .jp addr) rfl, decode_encode (i := .jpV0 addr) rfl,
    ⟨_, rfl, addrWord_toNat addr, onlyRegsIn_setPc s _⟩, ⟨_, rfl, indexedTarget_toNat s addr, onlyRegsIn_setPc s _⟩⟩

/-! ### The return stack (41_control_transfer.md R140, R142) -/

/-- CALL with room on the stack. -/
theorem exec_call_of_room {s : State} (h : s.SP.val < Config.stackDepth) (addr : Addr) :
    exec (.call addr) s = .next ((s.push h s.pc).setPc (addrWord addr)) := execCall_next.mpr ⟨h, rfl⟩

/-- RET with slot j on top of the stack. -/
theorem exec_ret_of_top {s : State} {j : Fin 16} (hj : s.SP.val = j.val + 1) :
    exec .ret s = .next (s.drop.setPc (s.stackAt j + 2)) := by
  have hne : s.SP.val ≠ 0 := by omega
  have htop : s.topSlot = j := Fin.ext (Nat.succ.inj ((topSlot_succ hne).trans hj))
  exact execRet_next.mpr ⟨hne, by rw [htop]⟩

/-- Settles O37: the push writes the slot at SP alone. -/
theorem callPushesItsOwnAddress : Obligations.CallPushesItsOwnAddress := by
  intro s addr
  refine ⟨decode_encode (i := .call addr) rfl, fun hfull => execCall_fault.mpr ⟨hfull, rfl⟩, fun j hj => ?_⟩
  have room : s.SP.val < Config.stackDepth := hj ▸ j.isLt
  refine ⟨_, exec_call_of_room room addr, addrWord_toNat addr, rfl, ?_, ?_, onlyRegs_of rfl, fun _ _ => rfl⟩
  · exact (s.push_stackAt room s.pc j).trans (if_pos hj.symm)
  · intro k hk
    exact (s.push_stackAt room s.pc k).trans (if_neg fun h => hk (Fin.ext (h.trans hj)))

/-- Settles O38: the slot below SP is read and no slot is written. -/
theorem returnAddsTwo : Obligations.ReturnAddsTwo := by
  intro s
  refine ⟨decode_encode (i := .ret) rfl, fun hempty => execRet_fault.mpr ⟨hempty, rfl⟩, fun j hj => ?_⟩
  exact ⟨_, exec_ret_of_top hj, rfl, Nat.sub_eq_of_eq_add hj, onlyRegs_of rfl, fun _ _ => rfl⟩

/-- Settles O39: the slot RET reads is the one CALL wrote. -/
theorem returnResumesAfterTheCall : Obligations.ReturnResumesAfterTheCall := by
  intro s addr room
  refine ⟨_, exec_call_of_room room addr, fun u hSP hStack => ?_⟩
  have top : u.SP.val = s.SP.val + 1 := congrArg Fin.val hSP
  have pushed : u.stackAt ⟨s.SP.val, room⟩ = s.pc := by
    calc
      u.stackAt ⟨s.SP.val, room⟩ = (s.push room s.pc).stackAt ⟨s.SP.val, room⟩ := congrArg (·[s.SP.val]) hStack
      _ = s.pc := (s.push_stackAt room s.pc _).trans (if_pos rfl)
  exact ⟨_, exec_ret_of_top (j := ⟨s.SP.val, room⟩) top, congrArg (· + 2) pushed, Fin.ext (Nat.sub_eq_of_eq_add top)⟩

/-! ### The skips on registers (41_control_transfer.md R143 to R146) -/

section
variable {i : Instr} {s : State} {c : Bool} {p : Prop} [Decidable p] (h : exec i s = .next (s.skipIf c))
include h

/-- An instruction that skips when `p` holds. -/
theorem completes_skip_of (hc : c = true ↔ p) :
    Completes i s (fun t => t.pc = (if p then s.pc + 4 else s.pc + 2) ∧ OnlyRegsIn [] s t) :=
  ⟨_, h, by simp only [State.skipIf_pc, hc], onlyRegsIn_skipIf s c⟩

/-- An instruction that skips when `p` does not hold. -/
theorem completes_skip_of_not (hc : c = true ↔ ¬ p) :
    Completes i s (fun t => t.pc = (if p then s.pc + 2 else s.pc + 4) ∧ OnlyRegsIn [] s t) :=
  ⟨_, h, by simp only [State.skipIf_pc, hc, ite_not], onlyRegsIn_skipIf s c⟩

end

/-- Settles O40: the two conditions are equality with kk and its negation. -/
theorem skipOnImmediate : Obligations.SkipOnImmediate := by
  intro s x kk
  refine ⟨?_, ?_, completes_skip_of rfl beq_iff_eq, completes_skip_of_not rfl bne_iff_ne⟩
  · exact (congrArg decode (encXkk_eq_ofNat 0x3 x kk)).symm.trans (decode_encode (i := .seImm x kk) rfl)
  · exact (congrArg decode (encXkk_eq_ofNat 0x4 x kk)).symm.trans (decode_encode (i := .sneImm x kk) rfl)

/-- Settles O41: the decoder selects by family, x and y, and the two conditions are equality and its negation. -/
theorem skipOnRegister : Obligations.SkipOnRegister := by
  intro s x y n hn
  exact ⟨decode_of_selectedBy (i := .seReg x y) (fields_xynWord (by decide) x y hn rfl),
    decode_of_selectedBy (i := .sneReg x y) (fields_xynWord (by decide) x y hn rfl),
    completes_skip_of rfl beq_iff_eq, completes_skip_of_not rfl bne_iff_ne⟩

/-! ### The skip pattern (41_control_transfer.md R147) -/

/-- A key test on a register that names key k. -/
theorem keySkip_of_key {s : State} {x : Reg} {k : Key} (hk : (s.reg x).toNat = k.val) (pressed : Bool) :
    keySkip pressed x s = .next (s.skipIf (s.key k == pressed)) := by
  simp only [keySkip, keyOf_some.mpr hk]

/-- A register that names key k names no other. -/
theorem exists_key_named_iff {s : State} {x : Reg} {k : Key} (hk : (s.reg x).toNat = k.val) (pressed : Bool) :
    (∃ j : Key, j.val = (s.reg x).toNat ∧ s.key j = pressed) ↔ s.key k = pressed := by
  constructor
  · rintro ⟨j, hj, hp⟩
    rwa [← Fin.ext (hj.trans hk)]
  · exact fun hp => ⟨k, hk.symm, hp⟩

/-- A completed key test is `skipIf` of whether the key that Vx names is at the level asked for, with any memory. -/
theorem keySkip_skip {pressed : Bool} {x : Reg} {s t : State} (h : keySkip pressed x s = .next t) :
    ∃ c, (c = true ↔ ∃ k : Key, k.val = (s.reg x).toNat ∧ s.key k = pressed) ∧ t = s.skipIf c ∧
      ∀ m : Memory, keySkip pressed x { s with mem := m } = .next (State.skipIf { s with mem := m } c) := by
  obtain ⟨k, hk, -⟩ := keySkip_next.mp h
  cases (keySkip_of_key hk pressed).symm.trans h
  exact ⟨s.key k == pressed, beq_iff_eq.trans (exists_key_named_iff hk pressed).symm, rfl, fun m =>
    keySkip_of_key (s := { s with mem := m }) hk pressed⟩

/-- A completed skip instruction is `skipIf` of its condition, with any memory. -/
theorem exec_skip {i : Instr} {s t : State} {p : Prop} (hp : skipCondition s i = some p) (h : exec i s = .next t) :
    ∃ c, (c = true ↔ p) ∧ t = s.skipIf c ∧
      ∀ m : Memory, exec i { s with mem := m } = .next (State.skipIf { s with mem := m } c) := by
  cases i with
  | seImm | seReg =>
    cases hp
    cases h
    exact ⟨_, beq_iff_eq, rfl, fun _ => rfl⟩
  | sneImm | sneReg =>
    cases hp
    cases h
    exact ⟨_, bne_iff_ne, rfl, fun _ => rfl⟩
  | skp | sknp =>
    cases hp
    exact keySkip_skip h
  | _ => cases hp

theorem skipIf_withMem (s : State) (c : Bool) (m : Memory) :
    State.skipIf { s with mem := m } c = { s.skipIf c with mem := m } := by
  cases c <;> rfl

/-- Settles O42: all six are `skipIf` of their condition, which advances once or twice. -/
theorem skipPattern : Obligations.SkipPattern := by
  intro i s t p hp h
  obtain ⟨c, hc, rfl, hmem⟩ := exec_skip hp h
  refine ⟨fun taken => ?_, fun notTaken => ?_, onlyRegsIn_skipIf s c, fun m => ?_⟩
  · rw [hc.mpr taken]
    rfl
  · rw [Bool.eq_false_iff.mpr (mt hc.mp notTaken)]
    rfl
  · rw [hmem m, skipIf_withMem]

end Sys2Proof.Machine
end

section
/-! The claims about the register, immediate, arithmetic, logic, shift and random instructions (42_alu.md): the words of
family 8, one lemma per order in which a handler writes Vx and VF, and the flags as numbers. -/

namespace Sys2Proof

/-! ### The words of formats XKK and XYN, as the claims write them (30_encoding.md R92) -/

/-- The fields that select an instruction of format XKK. -/
theorem fields_xkkWord {f : Nat} (hf : f < 16) (x : Reg) (kk : Byte) {w : Word}
    (hw : w = BitVec.ofNat 16 (f * 0x1000 + 0x100 * x.val + kk.toNat)) :
    fieldFamily w = f ∧ fieldX w = x ∧ fieldKk w = kk :=
  (eq_encXkk_iff hf).mp (hw.trans (encXkk_eq_ofNat f x kk).symm)

/-- The fields that select an instruction of family 8. -/
theorem fields_family8Word (x y : Reg) {n : Nat} (hn : n ≤ 15) {w : Word}
    (hw : w = BitVec.ofNat 16 (0x8000 + n + 0x100 * x.val + 0x10 * y.val)) :
    fieldFamily w = 0x8 ∧ fieldX w = x ∧ fieldY w = y ∧ fieldN w = n := by
  have canonical : w = encXyn 0x8 x y n := by
    rw [hw, encXyn_eq_ofNat 0x8 x y hn]
    congr 1
    omega
  rwa [eq_encXyn_iff (by decide), Nat.mod_eq_of_lt (Nat.lt_succ_of_le hn)] at canonical

/-- The fields that select an instruction of family 8 that ignores y (30_encoding.md R101). -/
theorem fields_family8Word_ignoringY (x y : Reg) {n : Nat} (hn : n ≤ 15) {w : Word}
    (hw : w = BitVec.ofNat 16 (0x8000 + n + 0x100 * x.val + 0x10 * y.val)) :
    fieldFamily w = 0x8 ∧ fieldX w = x ∧ fieldN w = n := by
  obtain ⟨hfamily, hx, -, hN⟩ := fields_family8Word x y hn hw
  exact ⟨hfamily, hx, hN⟩

end Sys2Proof

namespace Sys2Proof.Machine

/-! ### The three ways the handlers write (42_alu.md R163) -/

section
variable {i : Instr} {s : State} {x : Reg} {b : Byte} {c : Bool}

/-- An instruction that writes its result alone. -/
theorem completes_setReg (h : exec i s = .next (s.setReg x b).advance) :
    Completes i s (fun t => t.reg x = b ∧ t.pc = s.pc + 2 ∧ OnlyRegsIn [x] s t) :=
  ⟨_, h, s.setReg_reg_same x b, rfl, onlyRegs_of rfl, sameRegs_setReg s x b⟩

/-- An instruction that writes its result and then VF: the flag wins. -/
theorem completes_setReg_setVF (h : exec i s = .next ((s.setReg x b).setVF c).advance) :
    Completes i s (fun t => (x ≠ 15 → t.reg x = b) ∧ t.reg 15 = flagByte c ∧ t.pc = s.pc + 2 ∧
      OnlyRegsIn [x, 15] s t) := by
  refine ⟨_, h, fun hx => ?_, State.setVF_vf _ c, rfl, onlyRegs_of rfl, sameRegs_setReg_setVF s x b c⟩
  exact (State.setVF_other _ hx c).trans (s.setReg_reg_same x b)

/-- An instruction that writes VF and then its result: the result wins. -/
theorem completes_setVF_setReg (h : exec i s = .next ((s.setVF c).setReg x b).advance) :
    Completes i s (fun t => t.reg x = b ∧ (x ≠ 15 → t.reg 15 = flagByte c) ∧ t.pc = s.pc + 2 ∧
      OnlyRegsIn [x, 15] s t) := by
  refine ⟨_, h, State.setReg_reg_same _ x b, fun hx => ?_, rfl, onlyRegs_of rfl, sameRegs_setVF_setReg s x b c⟩
  exact (State.setReg_reg_other _ hx.symm b).trans (s.setVF_vf c)

end

/-! ### The flags as numbers (10_state.md R36) -/

theorem flagByte_decide (p : Prop) [Decidable p] : flagByte (decide p) = if p then 1 else 0 := by
  by_cases h : p <;> simp [flagByte, h]

theorem flagByte_toNat (c : Bool) : (flagByte c).toNat = c.toNat := by
  cases c <;> rfl

theorem flagByte_bitZero_toNat (a : Byte) : (flagByte (bitZero a)).toNat = a.toNat % 2 := by
  rw [flagByte_toNat, bitZero, BitVec.getLsbD, Nat.toNat_testBit, pow_zero, Nat.div_one]

/-- Bit 7 is the sign bit. -/
theorem bitSeven_eq_decide (a : Byte) : bitSeven a = decide (128 ≤ a.toNat) :=
  (BitVec.msb_eq_getLsbD_last a).symm.trans (BitVec.msb_eq_decide a)

theorem flagByte_bitSeven_toNat (a : Byte) : (flagByte (bitSeven a)).toNat = a.toNat / 128 := by
  have := a.isLt
  rw [flagByte_toNat, bitSeven, BitVec.getLsbD, Nat.toNat_testBit]
  omega

theorem flagByte_halved (c : Bool) : flagByte c >>> 1 = 0 := by
  cases c <;> rfl

theorem flagByte_doubled (c : Bool) : flagByte c <<< 1 = if c then 2 else 0 := by
  cases c <;> rfl

/-! ### LD Vx,kk, ADD Vx,kk and the copy and logic instructions (R161, R162, R165 to R168) -/

/-- Settles O28: both write Vx alone. -/
theorem immediateLoadAndAdd : Obligations.ImmediateLoadAndAdd := by
  intro s x kk
  obtain ⟨t, h, hsum, hpc, hframe⟩ := completes_setReg (i := .addImm x kk) (s := s) rfl
  exact ⟨decode_of_selectedBy (i := .ldImm x kk) (fields_xkkWord (by decide) x kk rfl),
    decode_of_selectedBy (i := .addImm x kk) (fields_xkkWord (by decide) x kk rfl), completes_setReg rfl,
    t, h, (congrArg BitVec.toNat hsum).trans (BitVec.toNat_add _ _), hpc, hframe⟩

/-- Settles O29: all four write Vx alone. -/
theorem copyAndLogic : Obligations.CopyAndLogic := fun _ x y =>
  ⟨decode_of_selectedBy (i := .ldReg x y) (fields_family8Word x y (by decide) rfl),
    decode_of_selectedBy (i := .orReg x y) (fields_family8Word x y (by decide) rfl),
    decode_of_selectedBy (i := .andReg x y) (fields_family8Word x y (by decide) rfl),
    decode_of_selectedBy (i := .xorReg x y) (fields_family8Word x y (by decide) rfl),
    completes_setReg rfl, completes_setReg rfl, completes_setReg rfl, completes_setReg rfl⟩

/-! ### ADD Vx,Vy (R169) -/

/-- Settles O30: the sum is written first and the carry last. -/
theorem addRegisters : Obligations.AddRegisters := by
  intro s x y
  obtain ⟨t, h, hsum, hcarry, hpc, hframe⟩ := completes_setReg_setVF (i := .addReg x y) (s := s) rfl
  refine ⟨decode_of_selectedBy (i := .addReg x y) (fields_family8Word x y (by decide) rfl), t, h, fun hx => ?_,
    hcarry.trans (flagByte_decide _), hpc, hframe⟩
  exact (congrArg BitVec.toNat (hsum hx)).trans (BitVec.toNat_add _ _)

/-! ### SUB and SUBN (R170, R172) -/

theorem flagByte_greater (a b : Byte) : flagByte (greater a b) = if a.toNat > b.toNat then 1 else 0 := flagByte_decide _

theorem setVF_reg_of_eq (s : State) {r : Reg} (h : r = 15) (c : Bool) : (s.setVF c).reg r = flagByte c :=
  h ▸ s.setVF_vf c

/-- The difference of two registers once VF is written, by which of them is VF (R163). -/
theorem setVF_difference (s : State) (p q : Reg) {c : Bool} {flag : Byte} (hflag : flagByte c = flag) :
    (p ≠ 15 → q ≠ 15 → (s.setVF c).reg p - (s.setVF c).reg q = s.reg p - s.reg q) ∧
    (p ≠ 15 → q = 15 → (s.setVF c).reg p - (s.setVF c).reg q = s.reg p - flag) ∧
    (p = 15 → q ≠ 15 → (s.setVF c).reg p - (s.setVF c).reg q = flag - s.reg q) ∧
    (p = 15 → q = 15 → (s.setVF c).reg p - (s.setVF c).reg q = 0) := by
  subst hflag
  refine ⟨fun hp hq => ?_, fun hp hq => ?_, fun hp hq => ?_, fun hp hq => ?_⟩
  · rw [s.setVF_other hp, s.setVF_other hq]
  · rw [s.setVF_other hp, setVF_reg_of_eq s hq]
  · rw [setVF_reg_of_eq s hp, s.setVF_other hq]
  · rw [hp, hq]
    exact BitVec.sub_self _

/-- Settles O31: the difference reads the registers once VF holds the flag. -/
theorem subtractRegisters : Obligations.SubtractRegisters := by
  intro s x y
  obtain ⟨t, h, hdiff, hflag, hpc, hframe⟩ := completes_setVF_setReg (i := .subReg x y) (s := s) rfl
  obtain ⟨neither, second, first, both⟩ := setVF_difference s x y (flagByte_greater (s.reg x) (s.reg y))
  rw [flagByte_greater] at hflag
  refine ⟨decode_of_selectedBy (i := .subReg x y) (fields_family8Word x y (by decide) rfl), t, h,
    fun hx hy => ⟨hflag hx, hdiff.trans (neither hx hy)⟩,
    fun hx hy => ⟨hflag hx, hdiff.trans (second hx hy)⟩,
    fun hx hy => ?_, fun hx hy => ?_, hpc, hframe⟩
  · exact (congrArg t.reg hx).symm.trans (hdiff.trans (first hx hy))
  · exact (congrArg t.reg hx).symm.trans (hdiff.trans (both hx hy))

/-- Settles O32: as SUB, with the two registers exchanged. -/
theorem reverseSubtractRegisters : Obligations.ReverseSubtractRegisters := by
  intro s x y
  obtain ⟨t, h, hdiff, hflag, hpc, hframe⟩ := completes_setVF_setReg (i := .subnReg x y) (s := s) rfl
  obtain ⟨neither, second, first, both⟩ := setVF_difference s y x (flagByte_greater (s.reg y) (s.reg x))
  rw [flagByte_greater] at hflag
  refine ⟨decode_of_selectedBy (i := .subnReg x y) (fields_family8Word x y (by decide) rfl), t, h,
    fun hx hy => ⟨hflag hx, hdiff.trans (neither hy hx)⟩,
    fun hx hy => ⟨hflag hx, hdiff.trans (first hy hx)⟩,
    fun hx hy => ?_, fun hx hy => ?_, hpc, hframe⟩
  · exact (congrArg t.reg hx).symm.trans (hdiff.trans (second hy hx))
  · exact (congrArg t.reg hx).symm.trans (hdiff.trans (both hy hx))

/-! ### SHR and SHL (R171, R173) -/

/-- Settles O33: the half reads Vx once VF holds bit 0. -/
theorem shiftRight : Obligations.ShiftRight := by
  intro s x y
  obtain ⟨t, h, hhalf, hflag, hpc, hframe⟩ := completes_setVF_setReg (i := .shr x) (s := s) rfl
  refine ⟨decode_of_selectedBy (i := .shr x) (fields_family8Word_ignoringY x y (by decide) rfl), t, h,
    fun hx => ⟨?_, ?_⟩, fun hx => ?_, hpc, hframe⟩
  · rw [hflag hx, flagByte_bitZero_toNat]
  · rw [hhalf, s.setVF_other hx, BitVec.toNat_ushiftRight, Nat.shiftRight_one]
  · rw [← hx, hhalf, setVF_reg_of_eq s hx, flagByte_halved]

/-- Settles O34: the double reads Vx once VF holds bit 7. -/
theorem shiftLeft : Obligations.ShiftLeft := by
  intro s x y
  obtain ⟨t, h, hdouble, hflag, hpc, hframe⟩ := completes_setVF_setReg (i := .shl x) (s := s) rfl
  refine ⟨decode_of_selectedBy (i := .shl x) (fields_family8Word_ignoringY x y (by decide) rfl), t, h,
    fun hx => ⟨?_, ?_⟩, fun hx => ?_, hpc, hframe⟩
  · rw [hflag hx, flagByte_bitSeven_toNat]
  · rw [hdouble, s.setVF_other hx, BitVec.toNat_shiftLeft, Nat.shiftLeft_eq, pow_one]
  · rw [← hx, hdouble, setVF_reg_of_eq s hx, flagByte_doubled, bitSeven_eq_decide]
    simp only [decide_eq_true_iff, ge_iff_le]

/-! ### RND (R174) -/

theorem rndWith_reg_same (b : Byte) (x : Reg) (kk : Byte) (s : State) : (rndWith b x kk s).reg x = b &&& kk :=
  s.setReg_reg_same x _

/-- The frame of RND with any byte: the count of samples is the one other field it writes. -/
theorem onlyRegsIn_rndWith (b : Byte) (x : Reg) (kk : Byte) (s : State) :
    OnlyRegsIn [x] { s with rndCount := s.rndCount + 1 } (rndWith b x kk s) :=
  ⟨onlyRegs_of rfl, sameRegs_setReg s x _⟩

/-- Settles O35: a byte masked with kk is bounded by kk, whatever the byte is. -/
theorem randomByteIsMasked : Obligations.RandomByteIsMasked := by
  intro s x kk
  refine ⟨decode_of_selectedBy (i := .rnd x kk) (fields_xkkWord (by decide) x kk rfl), _, rfl,
    rndWith_reg_same _ x kk s, ?_, ?_, rfl, rfl, onlyRegsIn_rndWith _ x kk s⟩
  · rw [rndWith_reg_same, BitVec.toNat_and]
    exact Nat.and_le_right
  · rw [rndWith_reg_same, BitVec.and_assoc, BitVec.and_not_self]
    exact BitVec.and_zero

end Sys2Proof.Machine
end

section
/-! The claims about the index register and the instructions that access memory through it (43_index_memory.md): the
words of format XSEL, the one check of every access, and what the two stores and the block load leave. -/

namespace Sys2Proof

/-! ### The words of format XSEL, as the claims write them (30_encoding.md R92) -/

theorem encXsel_eq_ofNat (f : Nat) (x : Reg) (sel : Nat) :
    encXsel f x sel = BitVec.ofNat 16 (f * 0x1000 + sel + 0x100 * x.val) := by
  rw [encXsel, Nat.mul_comm x.val, Nat.add_right_comm]

theorem decode_xselWord (f sel : Nat) {i : Instr} {x : Reg} (hwf : i.wf = true) (h : encode i = encXsel f x sel) :
    decode (BitVec.ofNat 16 (f * 0x1000 + sel + 0x100 * x.val)) = some i := by
  rw [← encXsel_eq_ofNat, ← h]
  exact decode_encode hwf

end Sys2Proof

namespace Sys2Proof.Machine

/-! ### The check of every access (43_index_memory.md R191) -/

/-- An access whose last address is above 0xFFF faults. -/
theorem withAccess_fault_of_gt {s u : State} {k : Nat} (h : s.I.toNat + k > 0xFFF) :
    withAccess (s.ea 0) (k + 1) u = .fault .memoryOutOfBounds := by
  refine withAccess_fault.mpr ⟨Bool.eq_false_iff.mpr fun hok => ?_, rfl⟩
  have inside : s.I.toNat + 0 + (k + 1) ≤ 4096 := le_memSize_of_accessOk hok
  omega

/-- An access whose last address is at most 0xFFF is carried out. -/
theorem withAccess_next_of_le {s u : State} {k : Nat} (h : s.I.toNat + k ≤ 0xFFF) :
    withAccess (s.ea 0) (k + 1) u = .next u := by
  refine withAccess_next.mpr ⟨(accessOk_iff _ _).mpr (.inr ?_), rfl⟩
  show s.I.toNat + 0 + (k + 1) ≤ 4096
  omega

/-- An instruction that accesses memory at I to I + k is one guarded access to k + 1 bytes. -/
theorem exec_of_lastOffset {i : Instr} {k : Nat} (h : lastOffset i = some k) (s : State) :
    ∃ u, exec i s = withAccess (s.ea 0) (k + 1) u := by
  cases i with
  | ldB | stRegs | ldRegs =>
    cases h
    exact ⟨_, rfl⟩
  | drw x y n =>
    cases n with
    | zero => cases h
    | succ n =>
      cases h
      exact ⟨_, rfl⟩
  | _ => cases h

/-- No memory access changes I. -/
theorem exec_I_of_lastOffset {i : Instr} {s t : State} {k : Nat} (hk : lastOffset i = some k)
    (h : exec i s = .next t) : t.I = s.I := by
  by_contra hne
  rcases exec_I_changed h hne with ⟨_, rfl⟩ | ⟨_, rfl⟩ | ⟨_, rfl⟩ <;> cases hk

/-- Settles O51: each of the four instructions is one guarded access, and none is among those that write I. -/
theorem addressesAreCheckedFirst : Obligations.AddressesAreCheckedFirst := by
  intro i s k hk
  obtain ⟨u, hu⟩ := exec_of_lastOffset hk s
  constructor
  · intro hgt
    have fault := hu.trans (withAccess_fault_of_gt hgt)
    exact ⟨fault, fun hi => cycle_of_fault (step_of_faults hi fault)⟩
  · intro hle
    have next := hu.trans (withAccess_next_of_le hle)
    exact ⟨u, next, exec_I_of_lastOffset hk next⟩

/-! ### LD I,addr, LD F,Vx and ADD I,Vx (R190, R192, R193) -/

/-- A state that differs in `pc` only. -/
theorem onlyRegsIn_of_pc {s t : State} (h : t = { s with pc := t.pc }) : OnlyRegsIn [] s t := by
  rw [h]
  exact onlyRegsIn_setPc s _

/-- An instruction that writes I alone. -/
theorem completes_setI {i : Instr} {s : State} {a : Word} {n : Nat} (h : exec i s = .next (s.setI a).advance)
    (ha : a.toNat = n) :
    Completes i s (fun t => t.I.toNat = n ∧ t.pc = s.pc + 2 ∧ OnlyRegsIn [] { s with I := t.I } t) :=
  ⟨_, h, ha, rfl, onlyRegsIn_of_pc rfl⟩

/-- Settles O49: both write I alone, and neither value overflows. -/
theorem indexLoads : Obligations.IndexLoads := fun s x addr =>
  ⟨decode_encode (i := .ldI addr) rfl, decode_xselWord 0xF 0x29 (i := .ldF x) rfl rfl,
    completes_setI rfl (addrWord_toNat addr), completes_setI rfl (glyphAddr_toNat s x)⟩

/-- Settles O50: the sum is checked to fit I, and the flag is of the sum as a natural number. -/
theorem indexAddSetsTheFlag : Obligations.IndexAddSetsTheFlag := by
  intro s x
  refine ⟨decode_xselWord 0xF 0x1E (i := .addI x) rfl rfl, fun hgt => execAddI_fault.mpr ⟨hgt, rfl⟩, fun hle => ?_⟩
  refine ⟨_, execAddI_next.mpr ⟨hle, rfl⟩, ?_, ?_, rfl, onlyRegs_of rfl, sameRegs_setReg _ vf _⟩
  · exact (BitVec.toNat_ofNat _ _).trans (Nat.mod_eq_of_lt (Nat.lt_succ_of_le hle))
  · exact (State.setVF_vf _ _).trans (flagByte_decide _)

/-! ### A block of bytes (20_memory.md R69) -/

theorem Memory.read_writeBytes_at {bytes : List Byte} {k : Nat} (h : k < bytes.length) (m : Memory) (a : Nat) :
    (m.writeBytes a bytes).read (a + k) = bytes[k] := by
  rw [Memory.read_writeBytes, if_pos (Nat.le_add_right a k), Nat.add_sub_cancel_left, List.getD_eq_getElem _ _ h]

theorem Memory.read_writeBytes_outside {bytes : List Byte} {a b : Nat} (h : b < a ∨ a + bytes.length ≤ b)
    (m : Memory) : (m.writeBytes a bytes).read b = m.read b := by
  rw [Memory.read_writeBytes]
  split
  · exact List.getD_eq_default _ _ (by omega)
  · rfl

/-! ### LD B,Vx (R194) -/

/-- The three stores of LD B,Vx write the digits as one block, hundreds first. -/
theorem storeBcd_mem (s : State) (b : Byte) :
    (s.storeBcd b).mem = s.mem.writeBytes s.I.toNat [hundreds b, tens b, ones b] := rfl

/-- The byte at I + k after LD B,Vx is digit k. -/
theorem storeBcd_read_digit (s : State) (b : Byte) {k : Nat} (h : k < 3) :
    (s.storeBcd b).mem.read (s.ea k) = [hundreds b, tens b, ones b][k] := by
  rw [storeBcd_mem]
  exact Memory.read_writeBytes_at h _ _

theorem sameMemOutside_storeBcd (s : State) (b : Byte) : SameMemOutside (s.ea 0) 3 s (s.storeBcd b) := by
  intro a ha
  rw [storeBcd_mem]
  exact Memory.read_writeBytes_outside ha _

/-- Settles O52: the digits are stored as one block of three bytes. -/
theorem decimalDigitsAreStored : Obligations.DecimalDigitsAreStored := by
  intro s x
  refine ⟨decode_xselWord 0xF 0x33 (i := .ldB x) rfl rfl, withAccess_fault_of_gt, fun hle => ?_⟩
  have next : exec (.ldB x) s = .next (s.storeBcd (s.reg x)).advance := withAccess_next_of_le hle
  have digit (k : Nat) (hk : k < 3) := congrArg BitVec.toNat (storeBcd_read_digit s (s.reg x) hk)
  exact ⟨_, next, (digit 0 (by decide)).trans (hundreds_toNat _), (digit 1 (by decide)).trans (tens_toNat _),
    (digit 2 (by decide)).trans (ones_toNat _), sameMemOutside_storeBcd s _, rfl, onlyRegsIn_of_pc rfl⟩

/-! ### LD [I],Vx (R195, 20_memory.md R75) -/

/-- LD [I],Vx with its block inside memory. -/
theorem exec_stRegs_of_le {s : State} {x : Reg} (h : s.I.toNat + x.val ≤ 0xFFF) :
    exec (.stRegs x) s = .next (s.storeRegs x).advance := withAccess_next_of_le h

/-- Settles O53: the store loop writes each register of the block at its own address. -/
theorem registersAreStored : Obligations.RegistersAreStored := by
  intro s x
  refine ⟨decode_xselWord 0xF 0x55 (i := .stRegs x) rfl rfl, withAccess_fault_of_gt, fun hle => ?_⟩
  have next := exec_stRegs_of_le hle
  exact ⟨_, next, fun _ hr => storeRegs_read_stored s hr, fun _ ha => storeRegs_read_other s ha,
    programCounterRule _ _ _ next, onlyRegsIn_of_pc (exec_writesOnly next)⟩

/-- Settles O21: the next fetch is at I, where V0 and V1 were stored. -/
theorem storeIsSeenByTheNextFetch : Obligations.StoreIsSeenByTheNextFetch := by
  intro s x hx hI hle
  have next := exec_stRegs_of_le hle
  have hpc : (s.storeRegs x).advance.pc = s.I := (programCounterRule _ _ _ next).trans hI.symm
  have stored (r : Reg) (hr : r ≤ x) : (s.storeRegs x).advance.mem.read (s.I.toNat + r.val) = s.reg r :=
    storeRegs_read_stored s hr
  refine ⟨_, next, fetch_ok.mpr ?_⟩
  rw [hpc]
  refine ⟨by omega, congrArg₂ wordOfBytes (stored 0 (Fin.zero_le x)).symm (stored 1 ?_).symm⟩
  exact Fin.le_def.mpr hx

/-! ### LD Vx,[I] (R196) -/

/-- Settles O54: the load loop writes each register of the block from its own address and no other register. -/
theorem registersAreLoaded : Obligations.RegistersAreLoaded := by
  intro s x
  refine ⟨decode_xselWord 0xF 0x65 (i := .ldRegs x) rfl rfl, withAccess_fault_of_gt, fun hle => ?_⟩
  have next : exec (.ldRegs x) s = .next (s.loadRegs x).advance := withAccess_next_of_le hle
  exact ⟨_, next, fun r hr => (loadRegs_reg s x r).trans (if_pos hr),
    fun r hr => (loadRegs_reg s x r).trans (if_neg hr.not_ge), programCounterRule _ _ _ next,
    onlyRegs_of (exec_writesOnly next)⟩

end Sys2Proof.Machine
end

section
/-! The claims about the display instructions (44_display.md): what CLS leaves, and what one and two draws of a sprite
leave in each cell and in VF. -/

namespace Sys2Proof.Machine

/-! ### CLS (R210) -/

/-- Settles O55: clearing replaces the framebuffer alone. -/
theorem clearScreen : Obligations.ClearScreen := fun s =>
  ⟨decode_encode (i := .cls) rfl, _, rfl, s.clearFB_pixel, rfl, onlyRegsIn_of_pc rfl⟩

/-! ### One draw (R211 to R216) -/

/-- The word of DRW, as the claims write it. -/
theorem decode_drwWord (x y : Reg) {n : Nat} (hn : n ≤ 15) :
    decode (BitVec.ofNat 16 (0xD000 + 0x100 * x.val + 0x10 * y.val + n)) = some (.drw x y n) :=
  (congrArg decode (encXyn_eq_ofNat 0xD x y hn)).symm.trans (decode_encode (i := .drw x y n) (decide_eq_true hn))

/-- DRW with a sprite byte above 0xFFF. -/
theorem exec_drw_of_outside {s : State} {n : Nat} (hn : n > 0) (h : s.I.toNat + n - 1 > 0xFFF) (x y : Reg) :
    exec (.drw x y n) s = .fault .memoryOutOfBounds := by
  obtain ⟨k, rfl⟩ := Nat.exists_eq_add_one.mpr hn
  exact withAccess_fault_of_gt h

/-- DRW with its sprite inside memory, or without a sprite byte (R214, R215). -/
theorem exec_drw_of_inside {s : State} {n : Nat} (h : n = 0 ∨ s.I.toNat + n - 1 ≤ 0xFFF) (x y : Reg) :
    exec (.drw x y n) s = .next (s.drawRows (s.reg x) (s.reg y) n).markRedraw.advance := by
  cases n with
  | zero => rfl
  | succ k => exact withAccess_next_of_le (h.resolve_left (Nat.succ_ne_zero k))

section
variable {s t : State} {x y : Reg} {n : Nat} (h : exec (.drw x y n) s = .next t)
include h

/-- A draw changes the registers, `pc`, the framebuffer and need_redraw only. -/
theorem onlyRegs_of_drw : OnlyRegs { s with FB := t.FB, needRedraw := t.needRedraw } t := by
  have written := exec_writesOnly h
  have redraw : t.needRedraw = true := (congrArg State.needRedraw written :)
  rw [redraw]
  exact onlyRegs_of written

variable (hn : n ≤ 15)
include hn

theorem exec_drw_pixel (row : Row) (col : Col) :
    t.pixel row col = (s.pixel row col ^^ spriteHits s (s.reg x) (s.reg y) n row col) := by
  obtain ⟨-, rfl⟩ := withAccess_next.mp h
  obtain ⟨-, cells, -⟩ := drawRows_spec s (s.reg x) (s.reg y) (n := n) (by omega)
  exact cells row col

theorem exec_drw_reg (r : Reg) :
    t.reg r = if r = vf then s.reg vf ||| flagByte (spriteCollides s (s.reg x) (s.reg y) n) else s.reg r := by
  obtain ⟨-, rfl⟩ := withAccess_next.mp h
  obtain ⟨-, -, registers⟩ := drawRows_spec s (s.reg x) (s.reg y) (n := n) (by omega)
  exact registers r

theorem exec_drw_vf : t.reg vf = s.reg vf ||| flagByte (spriteCollides s (s.reg x) (s.reg y) n) :=
  (exec_drw_reg h hn vf).trans (if_pos rfl)

theorem exec_drw_reg_other {r : Reg} (hr : r ≠ vf) : t.reg r = s.reg r := (exec_drw_reg h hn r).trans (if_neg hr)

/-- A cell under a sprite bit of 1 is inverted. -/
theorem exec_drw_pixel_covered {row : Row} {col : Col} (hc : SpriteCovers s (s.reg x) (s.reg y) n row col) :
    t.pixel row col = !s.pixel row col := by
  rw [exec_drw_pixel h hn, spriteHits_iff.mpr hc, Bool.xor_true]

/-- Every other cell is unchanged. -/
theorem exec_drw_pixel_uncovered {row : Row} {col : Col} (hc : ¬ SpriteCovers s (s.reg x) (s.reg y) n row col) :
    t.pixel row col = s.pixel row col := by
  rw [exec_drw_pixel h hn, Bool.eq_false_iff.mpr (mt spriteHits_iff.mp hc), Bool.xor_false]

/-- A lit cell under a sprite bit of 1 is a collision. -/
theorem exec_drw_vf_of_collision
    (hc : ∃ row col, SpriteCovers s (s.reg x) (s.reg y) n row col ∧ s.pixel row col = true) :
    t.reg vf = s.reg vf ||| 1 := by
  rw [exec_drw_vf h hn, spriteCollides_iff.mpr hc]
  rfl

/-- A sprite that meets no lit cell leaves VF as it was. -/
theorem exec_drw_vf_of_no_collision
    (hc : ∀ row col, SpriteCovers s (s.reg x) (s.reg y) n row col → s.pixel row col = false) :
    t.reg vf = s.reg vf := by
  have noHit : spriteCollides s (s.reg x) (s.reg y) n = false := by
    refine Bool.eq_false_iff.mpr fun hit => ?_
    obtain ⟨row, col, covered, lit⟩ := spriteCollides_iff.mp hit
    exact Bool.false_ne_true ((hc row col covered).symm.trans lit)
  rw [exec_drw_vf h hn, noHit]
  exact BitVec.or_zero

end

/-- Settles O56: the check decides between the fault and the sprite loop, whose effect on each cell and on VF is said
without the loop. -/
theorem drawXorsTheSprite : Obligations.DrawXorsTheSprite := by
  intro s x y n hn
  refine ⟨decode_drwWord x y hn, fun hpos hgt => exec_drw_of_outside hpos hgt x y, fun hin => ?_⟩
  have next := exec_drw_of_inside hin x y
  exact ⟨_, next, fun _ _ => exec_drw_pixel_covered next hn, fun _ _ => exec_drw_pixel_uncovered next hn,
    exec_drw_vf_of_collision next hn, exec_drw_vf_of_no_collision next hn, rfl, programCounterRule _ _ _ next,
    onlyRegs_of_drw next, fun r hr => exec_drw_reg_other next hn (List.mem_singleton.not.mp hr)⟩

/-! ### Two draws (R217) -/

/-- Which cells a sprite covers depends on I and memory, and on nothing else of the state. -/
theorem spriteCovers_congr {s t : State} (hI : t.I = s.I) (hmem : t.mem = s.mem) {vx vy : Byte} {n : Nat} {row : Row}
    {col : Col} : SpriteCovers t vx vy n row col ↔ SpriteCovers s vx vy n row col := by
  rw [SpriteCovers, SpriteCovers, hI, hmem]

/-- With its coordinates in registers other than VF, a draw leaves its own sprite where it was. -/
theorem spriteCovers_after_drw {s t : State} {x y : Reg} {n : Nat} (h : exec (.drw x y n) s = .next t) (hn : n ≤ 15)
    (hx : x ≠ 15) (hy : y ≠ 15) {row : Row} {col : Col} :
    SpriteCovers t (t.reg x) (t.reg y) n row col ↔ SpriteCovers s (s.reg x) (s.reg y) n row col := by
  have written := exec_writesOnly h
  rw [exec_drw_reg_other h hn hx, exec_drw_reg_other h hn hy]
  exact spriteCovers_congr (congrArg State.I written :) (congrArg State.mem written :)

theorem or_one_of_le_one {b : Byte} (h : b.toNat ≤ 1) : b ||| 1 = 1 := by
  rcases Nat.le_one_iff_eq_zero_or_eq_one.mp h with h | h
  · rw [BitVec.eq_of_toNat_eq (y := 0) h]
    rfl
  · rw [BitVec.eq_of_toNat_eq (y := 1) h]
    rfl

/-- Settles O57: both draws cover the same cells, so each is inverted twice or not at all, and a covered cell is lit
before one of the two draws. -/
theorem drawingTwiceRestores : Obligations.DrawingTwiceRestores := by
  intro s t u x y n hn hx hy ht hu
  have same {row : Row} {col : Col} := spriteCovers_after_drw ht hn hx hy (row := row) (col := col)
  refine ⟨fun row col => ?_, ?_⟩
  · by_cases hc : SpriteCovers s (s.reg x) (s.reg y) n row col
    · rw [exec_drw_pixel_covered hu hn (same.mpr hc), exec_drw_pixel_covered ht hn hc, Bool.not_not]
    · rw [exec_drw_pixel_uncovered hu hn (mt same.mp hc), exec_drw_pixel_uncovered ht hn hc]
  · rintro ⟨row, col, hc⟩ hle
    have collision : spriteCollides s (s.reg x) (s.reg y) n || spriteCollides t (t.reg x) (t.reg y) n := by
      rw [Bool.or_eq_true]
      cases lit : s.pixel row col with
      | true => exact .inl (spriteCollides_iff.mpr ⟨row, col, hc, lit⟩)
      | false =>
        have litByFirst : t.pixel row col = true := by rw [exec_drw_pixel_covered ht hn hc, lit, Bool.not_false]
        exact .inr (spriteCollides_iff.mpr ⟨row, col, same.mpr hc, litByFirst⟩)
    calc
      u.reg 15 = s.reg 15 ||| flagByte (spriteCollides s (s.reg x) (s.reg y) n ||
          spriteCollides t (t.reg x) (t.reg y) n) := by
        rw [exec_drw_vf hu hn, exec_drw_vf ht hn, BitVec.or_assoc, flagByte_or]
      _ = s.reg 15 ||| 1 := by
        rw [collision]
        rfl
      _ = 1 := or_one_of_le_one hle

end Sys2Proof.Machine
end

section
/-! The claims about the keypad and timer instructions (45_keypad_timers.md): the key skips, the two ways LD Vx,K
completes, each as a handler and as a whole step, and the timer accesses. -/

namespace Sys2Proof.Machine

/-! ### SKP and SKNP (R230, R231, R237) -/

/-- Settles O43: a value above 15 names no key, and any other names one, whose level is the condition. -/
theorem skipOnKey : Obligations.SkipOnKey := by
  intro s x
  refine ⟨decode_xselWord 0xE 0x9E (i := .skp x) rfl rfl, decode_xselWord 0xE 0xA1 (i := .sknp x) rfl rfl, ?_, ?_⟩
  · intro hgt
    exact ⟨keySkip_fault.mpr ⟨hgt, rfl⟩, keySkip_fault.mpr ⟨hgt, rfl⟩⟩
  · intro k hk
    exact ⟨completes_skip_of (keySkip_of_key hk true) beq_iff_eq,
      completes_skip_of_not (keySkip_of_key hk false) (beq_iff_eq.trans Bool.eq_false_iff)⟩

/-! ### LD Vx,K with no key pressed (R232, R233) -/

section
variable {s : State} (noKey : ∀ k, s.key k = false) (x : Reg)
include noKey

theorem exec_ldVxK_of_no_key : exec (.ldVxK x) s = .next (s.setWaiting true) := by
  rcases execLdVxK_cases x s with ⟨-, next⟩ | ⟨k, ⟨hk, -⟩, -⟩
  · exact next
  · exact absurd ((noKey k).symm.trans hk) Bool.false_ne_true

variable {x}

/-- The step is the handler alone: the timers do not count in a state that waits. -/
theorem step_ldVxK_of_no_key (hi : Fetches s (.ldVxK x)) : step s = .next (s.setWaiting true) := by
  rw [step_of_completes hi (exec_ldVxK_of_no_key noKey x), timerStep_of_waiting (s.setWaiting_waiting true)]

end

/-- Setting `waiting` is all that changes. -/
theorem onlyRegsIn_setWaiting (s : State) (b : Bool) : OnlyRegsIn [] { s with waiting := b } (s.setWaiting b) :=
  onlyRegsIn_of_pc rfl

/-! ### LD Vx,K with a key pressed (R232, R233) -/

section
variable {s : State} {k : Key} (pressed : s.key k = true) (least : ∀ j, j < k → s.key j = false) (x : Reg)
include pressed least

theorem exec_ldVxK_of_least_key :
    exec (.ldVxK x) s = .next ((s.setReg x (BitVec.ofNat 8 k.val)).setWaiting false).advance := by
  have found : s.firstKey = some k := firstKey_some.mpr ⟨pressed, least⟩
  simp only [exec, execLdVxK, found]

/-- The key number fits a register, so Vx holds it as it is. -/
theorem completes_ldVxK_of_least_key : Completes (.ldVxK x) s (fun t =>
    (t.reg x).toNat = k.val ∧ t.waiting = false ∧ t.pc = s.pc + 2 ∧
    OnlyRegsIn [x] { s with waiting := t.waiting } t) := by
  refine ⟨_, exec_ldVxK_of_least_key pressed least x, ?_, rfl, rfl, onlyRegs_of rfl, sameRegs_setReg s x _⟩
  calc
    ((s.setReg x (BitVec.ofNat 8 k.val)).reg x).toNat = k.val % 256 := by rw [State.setReg_reg_same, BitVec.toNat_ofNat]
    _ = k.val := Nat.mod_eq_of_lt (k.isLt.trans (by decide))

end

/-- Settles O44: the scan finds no key exactly when none is pressed, else the least one. -/
theorem keyWaitTakesTheLowestKey : Obligations.KeyWaitTakesTheLowestKey := fun s x =>
  ⟨decode_xselWord 0xF 0x0A (i := .ldVxK x) rfl rfl,
    fun noKey => ⟨_, exec_ldVxK_of_no_key noKey x, rfl, rfl, onlyRegsIn_setWaiting s true⟩,
    fun _ pressed least => completes_ldVxK_of_least_key pressed least x⟩

/-! ### The keypad wait machine (R233) -/

/-- A completed step of an instruction other than LD Vx,K leaves `waiting` as it was. -/
theorem step_keeps_waiting {s t : State} {i : Instr} (hi : Fetches s i) (other : ∀ x, i ≠ .ldVxK x)
    (h : step s = .next t) : t.waiting = s.waiting := by
  obtain ⟨j, u, hj, hu, rfl⟩ := step_next.mp h
  cases fetches_unique hi hj
  rw [timerStep_waiting]
  by_contra changed
  obtain ⟨x, hx⟩ := exec_waiting_changed hu changed
  exact other x hx

/-- Settles O45: only LD Vx,K writes `waiting`, and the timer step sees `waiting` as that handler left it. -/
theorem keypadWaitMachine : Obligations.KeypadWaitMachine := by
  intro s i hi
  refine ⟨fun other running t ht => (step_keeps_waiting hi other ht).trans running, ?_, ?_⟩
  · rintro x rfl noKey
    exact ⟨_, step_ldVxK_of_no_key noKey hi, rfl, rfl, rfl, rfl, onlyRegsIn_setWaiting s true⟩
  · rintro x k rfl pressed least
    obtain ⟨u, hu, hreg, running, hpc, ⟨frame, -⟩⟩ := completes_ldVxK_of_least_key pressed least x
    obtain ⟨hDT, hST⟩ := frame.timers
    refine ⟨timerStep u, step_of_completes hi hu, (timerStep_waiting u).trans running, (timerStep_pc u).trans hpc, ?_,
      ?_, ?_⟩
    · rw [timerStep_reg, hreg]
    · rw [timerStep_DT_toNat u running, hDT]
    · rw [timerStep_ST_toNat u running, hST]

/-- Settles O46, by induction on the number of steps: the state after the first fetches LD Vx,K again. -/
theorem keyWaitHoldsWithoutAKey : Obligations.KeyWaitHoldsWithoutAKey := by
  intro s x k hi noKey
  induction k generalizing s with
  | zero => exact run_step (step_ldVxK_of_no_key noKey hi) 0
  | succ k ih =>
    have again : Fetches (s.setWaiting true) (.ldVxK x) := fetches_congr rfl (fun _ => rfl) hi
    exact (run_step (step_ldVxK_of_no_key noKey hi) (k + 1)).trans (ih _ again noKey)

/-! ### The timer accesses (R234 to R236) -/

/-- Settles O47: one handler reads DT into Vx, and the other two write their timer alone. -/
theorem timerAccess : Obligations.TimerAccess := fun _ x =>
  ⟨decode_xselWord 0xF 0x07 (i := .ldVxDT x) rfl rfl, decode_xselWord 0xF 0x15 (i := .ldDTVx x) rfl rfl,
    decode_xselWord 0xF 0x18 (i := .ldSTVx x) rfl rfl, completes_setReg rfl,
    ⟨_, rfl, rfl, rfl, onlyRegsIn_of_pc rfl⟩, ⟨_, rfl, rfl, rfl, onlyRegsIn_of_pc rfl⟩⟩

end Sys2Proof.Machine
end

section
/-! The claims about faults (60_exceptions.md): which handler raises which, and that a fault is permanent. -/

namespace Sys2Proof.Machine

/-! ### The causes (R250, R252 to R255) -/

/-- An instruction that accesses memory at I to I + k faults only when I + k is outside it, and with one cause. -/
theorem exec_fault_of_lastOffset {i : Instr} {k : Nat} (hk : lastOffset i = some k) {s : State} {f : Fault}
    (h : exec i s = .fault f) : s.I.toNat + k > 0xFFF ∧ f = .memoryOutOfBounds := by
  obtain ⟨u, hu⟩ := exec_of_lastOffset hk s
  obtain ⟨outside, rfl⟩ := withAccess_fault.mp (hu.symm.trans h)
  refine ⟨Nat.lt_of_not_le fun hle => ?_, rfl⟩
  cases (withAccess_next_of_le hle).symm.trans (hu.symm.trans h)

/-- Settles O10: a handler without a case of its own answers a next state, and each other one by its own condition. -/
theorem handlerFaultsAreExactlyTheListed : Obligations.HandlerFaultsAreExactlyTheListed := by
  intro i s f
  constructor
  · intro h
    cases i with
    | call addr =>
      obtain ⟨full, rfl⟩ := execCall_fault.mp h
      exact .inl ⟨⟨addr, rfl⟩, full, rfl⟩
    | ret =>
      obtain ⟨empty, rfl⟩ := execRet_fault.mp h
      exact .inr (.inl ⟨rfl, empty, rfl⟩)
    | drw x y n =>
      cases n with
      | zero => cases (exec_drw_of_inside (.inl rfl) x y).symm.trans h
      | succ k =>
        obtain ⟨outside, rfl⟩ := exec_fault_of_lastOffset rfl h
        exact .inr (.inr (.inl ⟨⟨x, y, k + 1, rfl, k.succ_pos, outside⟩, rfl⟩))
    | ldB x => exact .inr (.inr (.inr (.inl ⟨⟨x, rfl⟩, exec_fault_of_lastOffset rfl h⟩)))
    | stRegs x =>
      obtain ⟨outside, rfl⟩ := exec_fault_of_lastOffset rfl h
      exact .inr (.inr (.inr (.inr (.inl ⟨⟨x, .inl rfl, outside⟩, rfl⟩))))
    | ldRegs x =>
      obtain ⟨outside, rfl⟩ := exec_fault_of_lastOffset rfl h
      exact .inr (.inr (.inr (.inr (.inl ⟨⟨x, .inr rfl, outside⟩, rfl⟩))))
    | addI x =>
      obtain ⟨large, rfl⟩ := execAddI_fault.mp h
      exact .inr (.inr (.inr (.inr (.inr (.inl ⟨⟨x, rfl, large⟩, rfl⟩)))))
    | skp x =>
      obtain ⟨noKey, rfl⟩ := keySkip_fault.mp h
      exact .inr (.inr (.inr (.inr (.inr (.inr ⟨⟨x, .inl rfl, noKey⟩, rfl⟩)))))
    | sknp x =>
      obtain ⟨noKey, rfl⟩ := keySkip_fault.mp h
      exact .inr (.inr (.inr (.inr (.inr (.inr ⟨⟨x, .inr rfl, noKey⟩, rfl⟩)))))
    | ldVxK x => rcases execLdVxK_cases x s with ⟨-, next⟩ | ⟨k, -, next⟩ <;> cases next.symm.trans h
    | _ => cases h
  · rintro (⟨⟨addr, rfl⟩, full, rfl⟩ | ⟨rfl, empty, rfl⟩ | ⟨⟨x, y, n, rfl, rows, outside⟩, rfl⟩ |
      ⟨⟨x, rfl⟩, outside, rfl⟩ | ⟨⟨x, rfl | rfl, outside⟩, rfl⟩ | ⟨⟨x, rfl, large⟩, rfl⟩ |
      ⟨⟨x, rfl | rfl, noKey⟩, rfl⟩)
    · exact execCall_fault.mpr ⟨full, rfl⟩
    · exact execRet_fault.mpr ⟨empty, rfl⟩
    · exact exec_drw_of_outside rows outside x y
    · exact withAccess_fault_of_gt outside
    · exact withAccess_fault_of_gt outside
    · exact withAccess_fault_of_gt outside
    · exact execAddI_fault.mpr ⟨large, rfl⟩
    · exact keySkip_fault.mpr ⟨noKey, rfl⟩
    · exact keySkip_fault.mpr ⟨noKey, rfl⟩

/-! ### A fault is permanent (R261) -/

section
variable {s : State} {f : Fault}

/-- The listed conditions are about I, SP and the general registers, so no handler's fault depends on the keys, on
need_redraw or on the position of the random input. -/
theorem exec_fault_withInputsAndRedraw {i : Instr} (h : exec i s = .fault f) (keys : Vector Bool 16) (redraw : Bool)
    (position : Nat) : exec i { s with K := keys, needRedraw := redraw, rndCount := position } = .fault f :=
  (handlerFaultsAreExactlyTheListed i _ f).mpr ((handlerFaultsAreExactlyTheListed i s f).mp h)

/-- The fetch and the decoder do not depend on them either, so no step's fault does. -/
theorem step_fault_withInputsAndRedraw (h : step s = .fault f) (keys : Vector Bool 16) (redraw : Bool)
    (position : Nat) : step { s with K := keys, needRedraw := redraw, rndCount := position } = .fault f := by
  rcases step_fault.mp h with hf | illegal | ⟨i, hi, he⟩
  · exact step_of_fetch_error hf
  · exact step_fault.mpr (.inr (.inl illegal))
  · exact step_of_faults hi (exec_fault_withInputsAndRedraw he keys redraw position)

/-- A host action writes the keys or need_redraw. -/
theorem step_fault_hostAct (h : step s = .fault f) (a : HostAction) : step (hostAct a s) = .fault f := by
  cases a with
  | setKey k pressed => exact step_fault_withInputsAndRedraw h _ s.needRedraw s.rndCount
  | setNeedRedraw b => exact step_fault_withInputsAndRedraw h s.K b s.rndCount

/-- By induction on the host's moves: a step request leaves the state as it was. -/
theorem step_fault_play (h : step s = .fault f) (moves : List HostMove) : step (play moves s) = .fault f := by
  induction moves generalizing s with
  | nil => exact h
  | cons move rest ih =>
    cases move with
    | step =>
      rw [play, cycle_of_fault h]
      exact ih h
    | act a => exact ih (step_fault_hostAct h a)

end

/-- Settles O11: neither the moves of the host nor the position of the random input reach what the fault rests on. -/
theorem faultIsPermanent : Obligations.FaultIsPermanent := fun s _ h =>
  ⟨step_fault_play h, step_fault_withInputsAndRedraw h s.K s.needRedraw⟩

end Sys2Proof.Machine
end

section
/-! The claim about loading a ROM (70_reset_and_hazards.md R295, R296): the image is one block of bytes at 0x200. -/

namespace Sys2Proof.Machine

/-- A ROM that fits is loaded as one block of bytes (R296). -/
theorem load_of_fits {rom : List Byte} (fits : rom.length ≤ 3584) (s : State) :
    load rom s = .loaded { s with mem := s.mem.writeBytes 0x200 rom } :=
  if_pos (decide_eq_true fits)

/-- Settles O13: a byte of the block reads back, one outside it keeps its value, and the load writes memory alone. -/
theorem loadPlacesTheImage : Obligations.LoadPlacesTheImage := fun _ s fits =>
  ⟨_, load_of_fits fits s, fun _ inside => Memory.read_writeBytes_at inside s.mem 0x200,
    fun _ outside => Memory.read_writeBytes_outside outside s.mem, rfl, onlyRegsIn_of_pc rfl⟩

end Sys2Proof.Machine
end

section
/-! The claims about the canonical form of memory (20_memory.md section 1, log 21): an entry is listed exactly when its
address reads as a byte other than its reset content, so what a memory reads as fixes its list. -/

namespace Sys2Proof.Machine

/-- A canonical memory lists exactly the addresses that do not read as their reset content, each with what it reads
as. -/
theorem Memory.mem_iff_read {m : Memory} (h : m.wf) (c : Host.Cell) :
    c ∈ m ↔ m.read c.1 = c.2 ∧ c.2 ≠ resetByte c.1 := by
  obtain ⟨rising, changed⟩ := h
  constructor
  · exact fun hc => ⟨Memory.read_listed rising hc, (changed c hc).2⟩
  · rintro ⟨reads, differs⟩
    by_contra unlisted
    refine differs (reads ▸ Memory.read_unlisted fun d hd sameAddress => unlisted ?_)
    have sameByte : d.2 = c.2 := by rw [← Memory.read_listed rising hd, sameAddress, reads]
    exact Prod.ext sameAddress sameByte ▸ hd

/-- Settles O20: a write inside memory keeps the canonical form, and two canonical memories that read alike have the
same entries, so they are one list: its addresses rise. -/
theorem canonicalMemory : Obligations.CanonicalMemory := by
  refine ⟨fun _ _ v hm inside => Memory.wf_write hm inside v, fun m n hm hn alike => ?_⟩
  have sameEntries (c : Host.Cell) : c ∈ m ↔ c ∈ n := by
    rw [Memory.mem_iff_read hm, Memory.mem_iff_read hn, alike]
  exact List.Pairwise.eq_of_mem_iff (r := InvImage (· < ·) Prod.fst) hm.1 hn.1 sameEntries

end Sys2Proof.Machine
end

section
/-! The claims about what a run keeps (10_state.md R38): the invariant holds at reset, a load of an image that fits and
every move of the host keep it, so it holds in every reachable state; a longer image is rejected
(70_reset_and_hazards.md R297). -/

namespace Sys2Proof.Machine

/-! ### The load (70_reset_and_hazards.md R296, R297) -/

/-- An image that does not fit is rejected (R297). -/
theorem load_of_large {rom : List Byte} (large : rom.length > 3584) (s : State) : load rom s = .romTooLarge :=
  if_neg (by simpa [romFits] using large)

/-- A load that answers a state found an image that fits, and wrote it as one block. -/
theorem load_loaded {rom : List Byte} {s t : State} (h : load rom s = .loaded t) :
    rom.length ≤ 3584 ∧ t = { s with mem := s.mem.writeBytes 0x200 rom } := by
  rcases Nat.lt_or_ge 3584 rom.length with large | fits
  · cases (load_of_large large s).symm.trans h
  · cases (load_of_fits fits s).symm.trans h
    exact ⟨fits, rfl⟩

/-- Settles O14: a longer image is answered romTooLarge, which is no loaded state. -/
theorem oversizedRomIsRejected : Obligations.OversizedRomIsRejected := by
  intro rom s large
  rw [load_of_large large s]
  exact ⟨rfl, fun _ => LoadOutcome.noConfusion⟩

/-! ### Reset and the load into it (70_reset_and_hazards.md R290, R296) -/

/-- Settles O15: nothing is listed in memory, `pc` is 0x200, every stack slot is 0 and the machine is not waiting. -/
theorem resetMeetsTheInvariant : Obligations.ResetMeetsTheInvariant where
  mem := Memory.wf_nil
  pc := by decide
  stack j := by simp
  waiting h := by cases h

/-- The image lies inside memory. A state that is not waiting rests on no byte of it, and reset is not waiting. -/
theorem load_keeps_inv {rom : List Byte} {s t : State} (hs : Inv s) (running : s.waiting = false)
    (h : load rom s = .loaded t) : Inv t := by
  obtain ⟨fits, rfl⟩ := load_loaded h
  exact {
    mem := Memory.wf_writeBytes hs.mem (Nat.add_le_add_left fits 0x200)
    pc := hs.pc
    stack := hs.stack
    waiting := fun h => by simp [running] at h }

/-! ### The moves of the host (10_state.md R41, R43, 40_cycle.md R129) -/

/-- Settles O17: the keys and need_redraw are no part of the invariant. -/
theorem hostActionKeepsTheInvariant : Obligations.HostActionKeepsTheInvariant := by
  intro a s hs
  cases a with
  | setKey k pressed => exact ⟨hs.mem, hs.pc, hs.stack, hs.waiting⟩
  | setNeedRedraw b => exact ⟨hs.mem, hs.pc, hs.stack, hs.waiting⟩

/-- A step request keeps the invariant: a completed step does (O16), and a fault leaves the state as it was (O9). -/
theorem cycle_keeps_inv {s : State} (hs : Inv s) : Inv (cycle s).1 := by
  rcases stepCompletesOrFaults s with ⟨i, t, u, -, -, -, hstep, hcycle⟩ | ⟨f, -, hcycle⟩ <;> rw [hcycle]
  · exact stepKeepsTheInvariant s u hs hstep
  · exact hs

/-- A run keeps the invariant, by induction on the host's moves. -/
theorem play_keeps_inv {s : State} (hs : Inv s) (moves : List HostMove) : Inv (play moves s) := by
  induction moves generalizing s with
  | nil => exact hs
  | cons move rest ih =>
    cases move with
    | step => exact ih (cycle_keeps_inv hs)
    | act a => exact ih (hostActionKeepsTheInvariant a s hs)

/-- Settles O18: the invariant holds at reset (O15), and the load and every run from it keep it. -/
theorem reachableStatesMeetTheInvariant : Obligations.ReachableStatesMeetTheInvariant := by
  rintro s ⟨rom, s₀, moves, hload, rfl⟩
  exact play_keeps_inv (load_keeps_inv resetMeetsTheInvariant rfl hload) moves

end Sys2Proof.Machine
end
